-- ==== Sys2Proof/Word.lean ====
section
/-! DEFINITION. The widths of the machine's values (R7): every one is an unsigned integer of a stated width. -/

namespace Sys2Proof

/-- 8 bits: V registers, timers, memory bytes, the immediate kk (R7). -/
abbrev Byte := BitVec 8

/-- 16 bits: I, PC, stack entries, the instruction word (R7). -/
abbrev Word := BitVec 16

/-- 12 bits: the address field nnn (R7, R91). -/
abbrev Addr := BitVec 12

/-- 4 bits: one nibble of an instruction word; the immediate n and SP (R6, R7). -/
abbrev Nibble := BitVec 4

/-- 4 bits: the number of a general register, V0 to VF (R20, R91). -/
abbrev Reg := BitVec 4

/-- 4 bits: the number of a key, 0 to 15 (R32). -/
abbrev Key := BitVec 4

end Sys2Proof
end

