-- ==== Sys2Proof/WellFormed.lean ====
section
/-! DEFINITION. Well-formed decoded words. An `Instr` needs no check of its own: the type of each operand is the width
of its field (R93), so every term of `Instr` is an instruction of the machine. What can go wrong is the cutting of a
word into fields: R91 says that the fields overlap, kk = y * 16 + n and nnn = x * 256 + kk. -/

namespace Sys2Proof

/-- kk is the two low nibbles (R91: kk = y * 16 + n). -/
def Fields.kkAgrees (f : Fields) : Bool := f.kk.toNat == f.y.toNat * 16 + f.n.toNat

/-- nnn is the three low nibbles (R91: nnn = x * 256 + kk). -/
def Fields.nnnAgrees (f : Fields) : Bool := f.nnn.toNat == f.x.toNat * 256 + f.kk.toNat

/-- The overlap of the fields that R91 states. -/
def Fields.WellFormed (f : Fields) : Bool := f.kkAgrees && f.nnnAgrees

end Sys2Proof
end

