-- ==== Sys2Proof/Decode.lean ====
section
/-! DEFINITION. From bits to instructions and back (R90 to R98). The decoder is total: a word that matches no row of
R94 is rejected under the name of its group of R97. The bit patterns are the spec's own (its decision D1), UNVERIFIED
against the source (log entry 1). -/

namespace Sys2Proof

/-- Why bytes are not an instruction: the six groups of UNKNOWN words (R97), or too few bytes for a word. -/
inductive Reject where
  /-- fewer than two bytes: no word -/
  | tooShort
  /-- 0x0000..0x0FFF except 0x00E0 and 0x00EE -/
  | zeroGroup
  /-- 5xyN with N not 0 -/
  | fiveGroup
  /-- 8xyN with N not in 0..7 and not 0xE -/
  | eightGroup
  /-- 9xyN with N not 0 -/
  | nineGroup
  /-- Exkk with kk neither 9E nor A1 -/
  | eGroup
  /-- Fxkk with kk none of 07, 0A, 15, 18, 1E, 29, 33, 55, 65 -/
  | fGroup
  deriving DecidableEq, Repr

/-- The fields of a word (R91); bit 0 is the least significant (R6). -/
def fieldsOf (w : Word) : Fields where
  n1 := w.extractLsb' 12 4
  x := w.extractLsb' 8 4
  y := w.extractLsb' 4 4
  n := w.extractLsb' 0 4
  kk := w.extractLsb' 0 8
  nnn := w.extractLsb' 0 12

/-- The 0 group: the whole word is fixed (R95). -/
def decodeZero (f : Fields) : Except Reject Instr :=
  if f.nnn = 0x0E0#12 then .ok .cls
  else if f.nnn = 0x0EE#12 then .ok .ret
  else .error .zeroGroup

/-- The 8xy_ group: the low nibble selects (R95). -/
def decodeEight (f : Fields) : Except Reject Instr :=
  match f.n.toNat with
  | 0x0 => .ok (.ldReg f.x f.y)
  | 0x1 => .ok (.orReg f.x f.y)
  | 0x2 => .ok (.andReg f.x f.y)
  | 0x3 => .ok (.xorReg f.x f.y)
  | 0x4 => .ok (.addReg f.x f.y)
  | 0x5 => .ok (.subReg f.x f.y)
  | 0x6 => .ok (.shr f.x f.y)
  | 0x7 => .ok (.subnReg f.x f.y)
  | 0xE => .ok (.shl f.x f.y)
  | _ => .error .eightGroup

/-- The E group: the low byte selects (R95). -/
def decodeE (f : Fields) : Except Reject Instr :=
  if f.kk = 0x9E#8 then .ok (.skp f.x)
  else if f.kk = 0xA1#8 then .ok (.sknp f.x)
  else .error .eGroup

/-- The F group: the low byte selects (R95). -/
def decodeF (f : Fields) : Except Reject Instr :=
  if f.kk = 0x07#8 then .ok (.ldVxDT f.x)
  else if f.kk = 0x0A#8 then .ok (.ldVxK f.x)
  else if f.kk = 0x15#8 then .ok (.ldDTVx f.x)
  else if f.kk = 0x18#8 then .ok (.ldSTVx f.x)
  else if f.kk = 0x1E#8 then .ok (.addI f.x)
  else if f.kk = 0x29#8 then .ok (.ldF f.x)
  else if f.kk = 0x33#8 then .ok (.ldB f.x)
  else if f.kk = 0x55#8 then .ok (.ldMemVx f.x)
  else if f.kk = 0x65#8 then .ok (.ldVxMem f.x)
  else .error .fGroup

/-- The opcode map, dispatched on the major opcode (R94); matching is exact on all fixed nibbles (R95). -/
def decodeFields (f : Fields) : Except Reject Instr :=
  match f.n1.toNat with
  | 0x0 => decodeZero f
  | 0x1 => .ok (.jp f.nnn)
  | 0x2 => .ok (.call f.nnn)
  | 0x3 => .ok (.seImm f.x f.kk)
  | 0x4 => .ok (.sneImm f.x f.kk)
  | 0x5 => if f.n = 0x0#4 then .ok (.seReg f.x f.y) else .error .fiveGroup
  | 0x6 => .ok (.ldImm f.x f.kk)
  | 0x7 => .ok (.addImm f.x f.kk)
  | 0x8 => decodeEight f
  | 0x9 => if f.n = 0x0#4 then .ok (.sneReg f.x f.y) else .error .nineGroup
  | 0xA => .ok (.ldI f.nnn)
  | 0xB => .ok (.jpV0 f.nnn)
  | 0xC => .ok (.rnd f.x f.kk)
  | 0xD => .ok (.drw f.x f.y f.n)
  | 0xE => decodeE f
  | _ => decodeF f

/-- The instruction a 16-bit word is, or the group of UNKNOWN words it lies in (R94 to R97). -/
def decode (w : Word) : Except Reject Instr := decodeFields (fieldsOf w)

/-- The big-endian word of two consecutive memory bytes (R90): the byte at the lower address is the high byte. -/
def wordOfBytes (b0 b1 : Byte) : Word := b0 ++ b1

/-- The two memory bytes of a word, the one at the lower address first (R64, R90). -/
def bytesOfWord (w : Word) : Byte × Byte := (w.extractLsb' 8 8, w.extractLsb' 0 8)

/-- The decoder on any bytes: the instruction at their head, and the bytes after it. Every instruction has the one
length of two bytes (R90, R99). -/
def decodeBytes : List Byte → Except Reject (Instr × List Byte)
  | b0 :: b1 :: rest => (decode (wordOfBytes b0 b1)).map fun i => (i, rest)
  | _ => .error .tooShort

/-- The word of an instruction (R92, R94): its fixed nibbles and its operand fields side by side. -/
def encode : Instr → Word
  | .cls => 0x00E0#16
  | .ret => 0x00EE#16
  | .jp nnn => 0x1#4 ++ nnn
  | .call nnn => 0x2#4 ++ nnn
  | .seImm x kk => 0x3#4 ++ x ++ kk
  | .sneImm x kk => 0x4#4 ++ x ++ kk
  | .seReg x y => 0x5#4 ++ x ++ y ++ 0x0#4
  | .ldImm x kk => 0x6#4 ++ x ++ kk
  | .addImm x kk => 0x7#4 ++ x ++ kk
  | .ldReg x y => 0x8#4 ++ x ++ y ++ 0x0#4
  | .orReg x y => 0x8#4 ++ x ++ y ++ 0x1#4
  | .andReg x y => 0x8#4 ++ x ++ y ++ 0x2#4
  | .xorReg x y => 0x8#4 ++ x ++ y ++ 0x3#4
  | .addReg x y => 0x8#4 ++ x ++ y ++ 0x4#4
  | .subReg x y => 0x8#4 ++ x ++ y ++ 0x5#4
  | .shr x y => 0x8#4 ++ x ++ y ++ 0x6#4
  | .subnReg x y => 0x8#4 ++ x ++ y ++ 0x7#4
  | .shl x y => 0x8#4 ++ x ++ y ++ 0xE#4
  | .sneReg x y => 0x9#4 ++ x ++ y ++ 0x0#4
  | .ldI nnn => 0xA#4 ++ nnn
  | .jpV0 nnn => 0xB#4 ++ nnn
  | .rnd x kk => 0xC#4 ++ x ++ kk
  | .drw x y n => 0xD#4 ++ x ++ y ++ n
  | .skp x => 0xE#4 ++ x ++ 0x9E#8
  | .sknp x => 0xE#4 ++ x ++ 0xA1#8
  | .ldVxDT x => 0xF#4 ++ x ++ 0x07#8
  | .ldVxK x => 0xF#4 ++ x ++ 0x0A#8
  | .ldDTVx x => 0xF#4 ++ x ++ 0x15#8
  | .ldSTVx x => 0xF#4 ++ x ++ 0x18#8
  | .addI x => 0xF#4 ++ x ++ 0x1E#8
  | .ldF x => 0xF#4 ++ x ++ 0x29#8
  | .ldB x => 0xF#4 ++ x ++ 0x33#8
  | .ldMemVx x => 0xF#4 ++ x ++ 0x55#8
  | .ldVxMem x => 0xF#4 ++ x ++ 0x65#8

/-- The word of w's low nbits bits, the bits above them zero. -/
def tableWord (nbits w : Nat) : Word := BitVec.ofNat 16 (w % 2 ^ nbits)

/-- What the decoder reads from an instruction whose bits are numbered as spec/opcode_table.json numbers them. An
instruction is one word, so the table's bit 0 is bit 0 of that word; the word is laid out as memory holds it, high
byte first, and given to the decoder. -/
def decodeTableWord (nbits w : Nat) : Option Instr :=
  let b := bytesOfWord (tableWord nbits w)
  match decodeBytes [b.1, b.2] with
  | .ok (i, _) => some i
  | .error _ => none

/-- One row of the opcode map of R94: a word w is of the row when `w &&& mask = bits`. -/
structure OpcodeRow where
  mask : Word
  bits : Word
  deriving DecidableEq, Repr

/-- A word is of a row (R94). -/
def OpcodeRow.matchesWord (r : OpcodeRow) (w : Word) : Bool := w &&& r.mask == r.bits

/-- The row of each instruction: the mask and match columns of R94. -/
def rowOf : Instr → OpcodeRow
  | .cls => ⟨0xFFFF, 0x00E0⟩
  | .ret => ⟨0xFFFF, 0x00EE⟩
  | .jp _ => ⟨0xF000, 0x1000⟩
  | .call _ => ⟨0xF000, 0x2000⟩
  | .seImm _ _ => ⟨0xF000, 0x3000⟩
  | .sneImm _ _ => ⟨0xF000, 0x4000⟩
  | .seReg _ _ => ⟨0xF00F, 0x5000⟩
  | .ldImm _ _ => ⟨0xF000, 0x6000⟩
  | .addImm _ _ => ⟨0xF000, 0x7000⟩
  | .ldReg _ _ => ⟨0xF00F, 0x8000⟩
  | .orReg _ _ => ⟨0xF00F, 0x8001⟩
  | .andReg _ _ => ⟨0xF00F, 0x8002⟩
  | .xorReg _ _ => ⟨0xF00F, 0x8003⟩
  | .addReg _ _ => ⟨0xF00F, 0x8004⟩
  | .subReg _ _ => ⟨0xF00F, 0x8005⟩
  | .shr _ _ => ⟨0xF00F, 0x8006⟩
  | .subnReg _ _ => ⟨0xF00F, 0x8007⟩
  | .shl _ _ => ⟨0xF00F, 0x800E⟩
  | .sneReg _ _ => ⟨0xF00F, 0x9000⟩
  | .ldI _ => ⟨0xF000, 0xA000⟩
  | .jpV0 _ => ⟨0xF000, 0xB000⟩
  | .rnd _ _ => ⟨0xF000, 0xC000⟩
  | .drw _ _ _ => ⟨0xF000, 0xD000⟩
  | .skp _ => ⟨0xF0FF, 0xE09E⟩
  | .sknp _ => ⟨0xF0FF, 0xE0A1⟩
  | .ldVxDT _ => ⟨0xF0FF, 0xF007⟩
  | .ldVxK _ => ⟨0xF0FF, 0xF00A⟩
  | .ldDTVx _ => ⟨0xF0FF, 0xF015⟩
  | .ldSTVx _ => ⟨0xF0FF, 0xF018⟩
  | .addI _ => ⟨0xF0FF, 0xF01E⟩
  | .ldF _ => ⟨0xF0FF, 0xF029⟩
  | .ldB _ => ⟨0xF0FF, 0xF033⟩
  | .ldMemVx _ => ⟨0xF0FF, 0xF055⟩
  | .ldVxMem _ => ⟨0xF0FF, 0xF065⟩

/-- One instruction of each row of R94, with its operand fields zero. -/
def oneOfEachRow : List Instr :=
  [.cls, .ret, .jp 0, .call 0, .seImm 0 0, .sneImm 0 0, .seReg 0 0, .ldImm 0 0, .addImm 0 0, .ldReg 0 0, .orReg 0 0,
   .andReg 0 0, .xorReg 0 0, .addReg 0 0, .subReg 0 0, .shr 0 0, .subnReg 0 0] ++
  [.shl 0 0, .sneReg 0 0, .ldI 0, .jpV0 0, .rnd 0 0, .drw 0 0 0, .skp 0, .sknp 0, .ldVxDT 0, .ldVxK 0, .ldDTVx 0,
   .ldSTVx 0, .addI 0, .ldF 0, .ldB 0, .ldMemVx 0, .ldVxMem 0]

/-- The rows of the opcode map (R94). -/
def opcodeRows : List OpcodeRow := oneOfEachRow.map rowOf

end Sys2Proof
end

