-- ==== Sys2Proof/Config.lean ====
section
/-! DEFINITION. The parameters of the machine (R4) and the free values it takes from outside (R152, R212, R246). -/

namespace Sys2Proof.Config

/-- `MEM_SIZE` (R4): addresses 0..4095. -/
abbrev memSize : Nat := 4096

/-- `FONT_BASE` (R4). -/
abbrev fontBase : Nat := 0x050

/-- `FONT_GLYPH_BYTES` (R4). -/
abbrev glyphBytes : Nat := 5

/-- `ROM_BASE` (R4). -/
abbrev romBase : Nat := 0x200

/-- `ROM_MAX` (R4): the largest ROM image, in bytes. -/
abbrev romMax : Nat := 3584

/-- `PC_RESET` (R4). -/
abbrev pcReset : Word := 0x200

/-- `STACK_DEPTH` (R4): the value of SP with which the stack is full. -/
abbrev stackDepth : Nibble := 15

/-- `FB_W` (R4). -/
abbrev fbWidth : Nat := 64

/-- `FB_H` (R4). -/
abbrev fbHeight : Nat := 32

/-- `RAND` (R152, R246): the byte sampled by the n-th RND. The spec puts no law on it, so it has no body. DESIGN
CHOICE (log entry 5): samples are numbered by a counter in the state. Safe: nothing can be proved of its values. -/
opaque rand : Nat → Byte

/-- `KEYWAIT_SELECT` (R212): which of the pressed keys the n-th completed key-wait reports, as an index that is
reduced modulo the number of pressed keys. No body, as any pressed key may be reported. DESIGN CHOICE (log entry 6). -/
opaque keyChoice : Nat → Nat

end Sys2Proof.Config
end

