-- ==== Sys2Proof/Machine/State.lean ====
section
/-! DEFINITION. The state of the machine (10_state.md), the reasons it can stop or refuse, and the state after reset.
The next_pc of a step, the fetched word and its fields, and the diagnostic are no state (R39). -/

namespace Sys2Proof.Machine

/-- The four faults (R231), each with the information the spec records for it. An instruction that raises one TAKES it:
`takeFault` records it in the latch, and the machine goes on to the latched state of R232. So no step and no meaning
answers with the outcome `fault` of the host's interface. -/
inductive Fault where
  /-- A byte address above 4095 would be accessed; addr is the lowest such address. Raised by the fetch, DRW, LD B,
  LD [I] Vx and LD Vx [I]. Safe: the spec's own entry is taken. -/
  | memRange (addr : Word)
  /-- CALL with SP = 15. Safe: the spec's own entry is taken. -/
  | stackOverflow
  /-- RET with SP = 0. Safe: the spec's own entry is taken. -/
  | stackUnderflow
  /-- SKP or SKNP with V[x] > 15; value is V[x]. Safe: the spec's own entry is taken. -/
  | keyRange (value : Byte)
  deriving DecidableEq, Repr

/-- Why an event is refused. No step answers with a refusal: the last three are host errors outside STEP. -/
inductive Refusal where
  /-- The named instruction has no meaning in the model. Raised by no arm of exec: every instruction has its meaning.
  Safe. -/
  | notModelled (mnemonic : String)
  /-- RESET with a ROM of more than 3584 bytes (R271). Raised by `deliver`. Safe: the spec refuses the event. -/
  | romTooLong
  /-- FB_GET with a coordinate out of range (R77). Raised by `fbGet`. Safe: the spec refuses the read. -/
  | fbGetRange
  /-- MEM_PEEK with an address above 4095 (R79). Raised by `memPeek`. Safe: the spec refuses the read. -/
  | memPeekRange
  deriving DecidableEq, Repr

/-- A fault record (R231): the cause with its information, the PC of the faulting instruction, and its word (none for a
fetch fault). -/
structure FaultRecord where
  cause : Fault
  pc : Word
  op : Option Word
  deriving DecidableEq, Repr

/-- Memory (R36, R60): the bytes that differ from the reset contents, by address, in rising order (`Memory.wf`). -/
abbrev Memory := List Host.Cell

/-- The framebuffer (R37): 32 rows, from the top, of 64 pixels, from the left. -/
abbrev Screen := Vector (Vector Bool 64) 32

/-- Everything the spec gives the machine (10_state.md), and two counters of the model's own. -/
structure State where
  /-- V0..VF (R20); VF doubles as the flag (R23). -/
  v : Vector Byte 16
  /-- I, the index register (R27). -/
  i : Word
  /-- PC (R24). -/
  pc : Word
  /-- SP, the index of the most recent return address; 0 when the stack is empty (R28). -/
  sp : Nibble
  /-- The call stack (R29). -/
  stack : Vector Word 16
  /-- DT, the delay timer (R30). -/
  dt : Byte
  /-- ST, the sound timer (R31). -/
  st : Byte
  /-- The pressed-key vector (R32). -/
  keys : Vector Bool 16
  /-- The fault latch (R33). -/
  fault : Option FaultRecord
  /-- draw_pending (R34). -/
  drawPending : Bool
  /-- sound_active (R35). -/
  soundActive : Bool
  /-- The 4096 bytes of memory (R36). -/
  mem : Memory
  /-- The framebuffer (R37). -/
  fb : Screen
  /-- The model's own: how many random bytes RND has consumed. DESIGN CHOICE (log entry 5). -/
  randDraws : Nat
  /-- The model's own: how many key-waits have completed. DESIGN CHOICE (log entry 6). -/
  keyDraws : Nat
  deriving DecidableEq, Repr

/-- The state after RESET with an empty ROM (R42, R270, R271). The zeros of V, I, the stack, DT, ST, the keys and the two
flags are the reset values of R42, which are the spec's own decision D16 (log entry 3, unsafe); memory lists nothing,
so it holds the reset contents; the model's two counters start at 0 (log entries 5 and 6). -/
def State.reset : State where
  v := Vector.replicate 16 0
  i := 0
  pc := Config.pcReset
  sp := 0
  stack := Vector.replicate 16 0
  dt := 0
  st := 0
  keys := Vector.replicate 16 false
  fault := none
  drawPending := false
  soundActive := false
  mem := []
  fb := Vector.replicate 32 (Vector.replicate 64 false)
  randDraws := 0
  keyDraws := 0

end Sys2Proof.Machine
end

