-- ==== Sys2Proof/Machine/Memory.lean ====
section
/-! DEFINITION. Memory (20_memory.md): the reset contents with the font, reads and writes of bytes and of big-endian
words, and the canonical form. The operations here are total on every address; the range rule (R65) is applied before
them, in Operands.lean and Cycle.lean. -/

namespace Sys2Proof.Machine

/-- The font table (R69), glyph 0 first, top row first. Glyphs 1 to F are the spec's own (its decision D3), UNVERIFIED
against the source (log entry 2). -/
def fontBytes : List Byte :=
  [0xF0, 0x90, 0x90, 0x90, 0xF0] ++ [0x20, 0x60, 0x20, 0x20, 0x70] ++
  [0xF0, 0x10, 0xF0, 0x80, 0xF0] ++ [0xF0, 0x10, 0xF0, 0x10, 0xF0] ++
  [0x90, 0x90, 0xF0, 0x10, 0x10] ++ [0xF0, 0x80, 0xF0, 0x10, 0xF0] ++
  [0xF0, 0x80, 0xF0, 0x90, 0xF0] ++ [0xF0, 0x10, 0x20, 0x40, 0x40] ++
  [0xF0, 0x90, 0xF0, 0x90, 0xF0] ++ [0xF0, 0x90, 0xF0, 0x10, 0xF0] ++
  [0xF0, 0x90, 0xF0, 0x90, 0x90] ++ [0xE0, 0x90, 0xE0, 0x90, 0xE0] ++
  [0xF0, 0x80, 0x80, 0x80, 0xF0] ++ [0xE0, 0x90, 0x90, 0x90, 0xE0] ++
  [0xF0, 0x80, 0xF0, 0x80, 0xF0] ++ [0xF0, 0x80, 0xF0, 0x80, 0x80]

/-- What an address reads as when nothing has been written to it: the reset contents with an empty ROM (R42, R68), the
font from 0x050 on and 0 elsewhere (the zeros are the spec's decision D16: log entry 3). -/
def resetByte (a : Nat) : Byte :=
  if Config.fontBase ≤ a then fontBytes.getD (a - Config.fontBase) 0 else 0

/-- The byte at an address (R61). -/
def Memory.read : Memory → Nat → Byte
  | [], a => resetByte a
  | (k, b) :: rest, a => if a = k then b else Memory.read rest a

/-- A cell in front of a memory, left out when it holds what its address reads as anyway. -/
def Memory.cons (a : Nat) (b : Byte) (m : Memory) : Memory :=
  if b = resetByte a then m else (a, b) :: m

/-- The store of one byte (R62), which keeps the canonical form. -/
def Memory.write : Memory → Nat → Byte → Memory
  | [], a, b => Memory.cons a b []
  | (k, c) :: rest, a, b =>
    if a < k then Memory.cons a b ((k, c) :: rest)
    else if a = k then Memory.cons a b rest
    else (k, c) :: Memory.write rest a b

/-- The store of a list of bytes at ascending addresses, the first at a (R67). -/
def Memory.writeBytes (m : Memory) (a : Nat) : List Byte → Memory
  | [] => m
  | b :: rest => Memory.writeBytes (m.write a b) (a + 1) rest

/-- The big-endian word at a and a + 1 (R63). -/
def Memory.readWord (m : Memory) (a : Nat) : Word := wordOfBytes (m.read a) (m.read (a + 1))

/-- The big-endian store of a word (R64). The machine offers it and no instruction uses it. -/
def Memory.writeWord (m : Memory) (a : Nat) (w : Word) : Memory :=
  let b := bytesOfWord w
  (m.write a b.1).write (a + 1) b.2

/-- Every address of the list is above lo, they rise strictly, they lie in memory, and no cell holds what its address
reads as when unlisted. -/
def Memory.wfAbove : Nat → Memory → Bool
  | _, [] => true
  | lo, (k, b) :: rest => decide (lo ≤ k) && decide (k < Config.memSize) && decide (b ≠ resetByte k) &&
      Memory.wfAbove (k + 1) rest

/-- The canonical form of a memory: equal contents are equal lists. -/
def Memory.wf (m : Memory) : Bool := Memory.wfAbove 0 m

end Sys2Proof.Machine
end

