-- ==== Sys2Proof/Machine/Screen.lean ====
section
/-! DEFINITION. The framebuffer primitives (R76) and the drawing of a sprite (R191). -/

namespace Sys2Proof.Machine

/-- `get(x, y)`: the pixel at column x and row y (R76). Off-screen coordinates never reach it from an instruction
(R77); there it is false. -/
def Screen.get (fb : Screen) (x y : Nat) : Bool :=
  if h : x < 64 ∧ y < 32 then (fb[y]'h.2)[x]'h.1 else false

/-- `toggle(x, y)`: flips one pixel (R76). Off-screen coordinates never reach it from an instruction (R77); there it
changes nothing. -/
def Screen.toggle (fb : Screen) (x y : Nat) : Screen :=
  if h : x < 64 ∧ y < 32 then fb.set y ((fb[y]'h.2).set x (!(fb[y]'h.2)[x]'h.1) h.1) h.2 else fb

/-- `clear()`: every pixel off (R76). -/
def Screen.clear : Screen := Vector.replicate 32 (Vector.replicate 64 false)

/-- The framebuffer while a sprite is drawn, and whether a set bit has landed on a lit pixel so far. -/
structure Drawing where
  fb : Screen
  hit : Bool
  deriving DecidableEq, Repr

/-- One column of one sprite row (R191): a column right of column 63 is dropped, a 0 bit does nothing, and a 1 bit
records a collision with a lit pixel and then toggles it. -/
def drawPixel (x0 y : Nat) (b : Byte) (d : Drawing) (col : Nat) : Drawing :=
  if x0 + col > 63 then d
  else if b.getLsbD (7 - col) then ⟨d.fb.toggle (x0 + col) y, d.hit || d.fb.get (x0 + col) y⟩
  else d

/-- One row of a sprite, of byte b (R191): a row below row 31 is dropped. -/
def drawRow (x0 y : Nat) (b : Byte) (d : Drawing) : Drawing :=
  if y > 31 then d else (List.range 8).foldl (drawPixel x0 y b) d

/-- The rows of a sprite whose row r has the byte `rows r`, drawn at the anchor (x0, y0) (R191). -/
def drawSprite (rows : Nat → Byte) (x0 y0 n : Nat) (fb : Screen) : Drawing :=
  (List.range n).foldl (fun d row => drawRow x0 (y0 + row) (rows row) d) ⟨fb, false⟩

end Sys2Proof.Machine
end

