-- ==== Sys2Proof/Machine/Ops.lean ====
section
/-! DEFINITION. The named reads and writes of the state, and the taking of a fault (R232). -/

namespace Sys2Proof.Machine

/-- What an event or a step answers with. -/
abbrev Answer := Host.Outcome State Fault Refusal

/-- The number of VF (R23). -/
abbrev vf : Reg := 0xF

/-- `V[x]` (R8). -/
def State.getV (s : State) (x : Reg) : Byte := s.v[x.toNat]'x.isLt

/-- `V[x] <- b` (R8). No register is hardwired (R20). -/
def State.setV (s : State) (x : Reg) (b : Byte) : State := { s with v := s.v.set x.toNat b x.isLt }

/-- `I <- w` (R8). -/
def State.setI (s : State) (w : Word) : State := { s with i := w }

/-- The commit of an overridden next_pc (R120). -/
def State.goto (s : State) (target : Word) : State := { s with pc := target }

/-- PC + 2, the default next_pc (R120). -/
def State.nextPc (s : State) : Word := s.pc + 2

/-- The commit of the default next_pc (R120). -/
def State.advance (s : State) : State := s.goto s.nextPc

/-- The commit of a skip instruction (R25): PC + 4 when the condition holds, else PC + 2. -/
def State.skipIf (s : State) (c : Bool) : State := s.goto (if c then s.nextPc + 2 else s.nextPc)

/-- `stack[k]` (R29). -/
def State.slot (s : State) (k : Nibble) : Word := s.stack[k.toNat]'k.isLt

/-- `stack[SP]` (R28). -/
def State.topOfStack (s : State) : Word := s.slot s.sp

/-- `stack[SP + 1] <- w; SP <- SP + 1` (R125), for SP < 15. -/
def State.push (s : State) (w : Word) : State :=
  { s with stack := s.stack.set (s.sp + 1).toNat w (s.sp + 1).isLt, sp := s.sp + 1 }

/-- `SP <- SP - 1` (R123), for SP > 0: the entry keeps its value (R29). -/
def State.pop (s : State) : State := { s with sp := s.sp - 1 }

/-- `DT <- b` (R214). -/
def State.setDT (s : State) (b : Byte) : State := { s with dt := b }

/-- `ST <- b` (R215). -/
def State.setST (s : State) (b : Byte) : State := { s with st := b }

/-- `keys[k]` (R32). -/
def State.keyDown (s : State) (k : Key) : Bool := s.keys[k.toNat]'k.isLt

/-- `keys[k] <- b`, a host event (R242). -/
def State.setKey (s : State) (k : Key) (b : Bool) : State := { s with keys := s.keys.set k.toNat b k.isLt }

/-- The memory after a store. -/
def State.setMem (s : State) (m : Memory) : State := { s with mem := m }

/-- The framebuffer after CLS or DRW, with `draw_pending <- 1` (R190, R191). -/
def State.showScreen (s : State) (fb : Screen) : State := { s with fb := fb, drawPending := true }

/-- One random byte consumed (R246). -/
def State.countRand (s : State) : State := { s with randDraws := s.randDraws + 1 }

/-- One key-wait completed (R212). -/
def State.countKeyWait (s : State) : State := { s with keyDraws := s.keyDraws + 1 }

/-- Fault entry (R232): the latch records the cause, the PC of the faulting instruction and its word; nothing else is
written, and PC is not committed. There is no return from a fault but RESET (R233). DEDUCED (log entry 11); safe. -/
def takeFault (s : State) (cause : Fault) (op : Option Word) : Answer :=
  .next { s with fault := some ⟨cause, s.pc, op⟩ }

/-- The code of a fault (R231). -/
def faultCode : Fault → BitVec 3
  | .memRange _ => 1
  | .stackOverflow => 2
  | .stackUnderflow => 3
  | .keyRange _ => 4

/-- The recorded info of a fault (R231), as wide as the port that shows it (R243). -/
def faultInfo : Fault → Option Word
  | .memRange a => some a
  | .stackOverflow => none
  | .stackUnderflow => none
  | .keyRange v => some (v.setWidth 16)

end Sys2Proof.Machine
end

