-- ==== Sys2Proof/Machine/Operands.lean ====
section
/-! DEFINITION. The operand forms: addresses formed from I and their range check (R66, R176), the sprite anchor (R191),
the bytes of a register block, the key selected by a key-wait (R212). -/

namespace Sys2Proof.Machine

/-- The address `I + k`, a plain sum, never wrapped (R66). -/
def State.addr (s : State) (k : Nat) : Nat := s.i.toNat + k

/-- The range check of an instruction that accesses `I .. I + k` (R176): none when it passes, else the fault, whose
address is max(I, 4096). -/
def State.rangeFault (s : State) (k : Nat) : Option Fault :=
  if s.addr k ≤ 4095 then none else some (.memRange (if s.i.toNat < 4096 then 4096 else s.i))

/-- The range check of a draw of n rows (R191): no row, no check. -/
def State.drawFault (s : State) (n : Nibble) : Option Fault :=
  if n = 0 then none else s.rangeFault (n.toNat - 1)

/-- The anchor column, V[x] & 63 (R191). -/
def State.anchorX (s : State) (x : Reg) : Nat := (s.getV x &&& 63).toNat

/-- The anchor row, V[y] & 31 (R191). -/
def State.anchorY (s : State) (y : Reg) : Nat := (s.getV y &&& 31).toNat

/-- The byte of sprite row r, at `I + r` (R191). -/
def State.spriteByte (s : State) (r : Nat) : Byte := s.mem.read (s.addr r)

/-- The decimal digits of a byte, hundreds first (R173). -/
def bcdDigits (a : Byte) : List Byte :=
  [BitVec.ofNat 8 (a.toNat / 100), BitVec.ofNat 8 (a.toNat / 10 % 10), BitVec.ofNat 8 (a.toNat % 10)]

/-- The values of V0..Vx, V0 first (R174). -/
def State.blockOut (s : State) (x : Reg) : List Byte :=
  (List.range (x.toNat + 1)).map fun k => s.getV (BitVec.ofNat 4 k)

/-- `V[k] <- mem[I + k]` for k in 0..=x, in that order (R175). -/
def State.blockIn (s : State) (x : Reg) : State :=
  (List.range (x.toNat + 1)).foldl (fun t k => t.setV (BitVec.ofNat 4 k) (s.mem.read (s.addr k))) s

/-- The numbers of the pressed keys, lowest first: the set P of R212. -/
def State.pressedKeys (s : State) : List Key :=
  ((List.range 16).map fun k => BitVec.ofNat 4 k).filter fun k => s.keyDown k

/-- `select(P)` (R212): none when no key is pressed, the key when only one is, else some member of P, chosen by the
free value `Config.keyChoice`. DESIGN CHOICE (log entry 6); safe. -/
def selectKey (pressed : List Key) (draw : Nat) : Option Key :=
  match pressed with
  | [] => none
  | [k] => some k
  | k :: more => some ((k :: more).getD (Config.keyChoice draw % (more.length + 1)) k)

end Sys2Proof.Machine
end

