-- ==== Sys2Proof/Machine/Flags.lean ====
section
/-! DEFINITION. The flag computations (R23): each is a Bool, written to VF as 0 or 1. -/

namespace Sys2Proof.Machine

/-- A flag as the 8-bit value VF is written with (R23). -/
def flagByte (c : Bool) : Byte := if c then 1 else 0

/-- The carry of an 8-bit addition: a + b > 255 (R147). -/
def carryOf (a b : Byte) : Bool := decide (a.toNat + b.toNat > 255)

/-- No borrow in minuend - subtrahend: minuend >= subtrahend (R148, R149; `SUB_FLAG_RULE` of R4). -/
def noBorrowOf (minuend subtrahend : Byte) : Bool := decide (minuend.toNat ≥ subtrahend.toNat)

/-- The bit a right shift drops: bit 0 (R150). -/
def lowBitOf (a : Byte) : Bool := a.getLsbD 0

/-- The bit a left shift drops: bit 7 (R151). -/
def highBitOf (a : Byte) : Bool := a.getLsbD 7

/-- `VF <- flag`, then `V[x] <- result`: with x = 0xF the result stays (R140). -/
def State.setFlagThenV (s : State) (x : Reg) (flag : Bool) (result : Byte) : State :=
  (s.setV vf (flagByte flag)).setV x result

end Sys2Proof.Machine
end

