-- ==== Sys2Proof/Machine/Alu.lean ====
section
/-! DEFINITION. Register load, logic, arithmetic, shift and random (41_alu.md). -/

namespace Sys2Proof.Machine

/-- 6xkk LD Vx, kk (R141). -/
def execLdImm (x : Reg) (kk : Byte) (s : State) : Answer := .next (s.setV x kk).advance

/-- 8xy0 LD Vx, Vy (R142). -/
def execLdReg (x y : Reg) (s : State) : Answer := .next (s.setV x (s.getV y)).advance

/-- 8xy1 OR Vx, Vy (R143). -/
def execOrReg (x y : Reg) (s : State) : Answer := .next (s.setV x (s.getV x ||| s.getV y)).advance

/-- 8xy2 AND Vx, Vy (R144). -/
def execAndReg (x y : Reg) (s : State) : Answer := .next (s.setV x (s.getV x &&& s.getV y)).advance

/-- 8xy3 XOR Vx, Vy (R145). -/
def execXorReg (x y : Reg) (s : State) : Answer := .next (s.setV x (s.getV x ^^^ s.getV y)).advance

/-- 7xkk ADD Vx, kk (R146): no flag effect. -/
def execAddImm (x : Reg) (kk : Byte) (s : State) : Answer := .next (s.setV x (s.getV x + kk)).advance

/-- 8xy4 ADD Vx, Vy (R147, R140). -/
def execAddReg (x y : Reg) (s : State) : Answer :=
  .next (s.setFlagThenV x (carryOf (s.getV x) (s.getV y)) (s.getV x + s.getV y)).advance

/-- 8xy5 SUB Vx, Vy (R148, R140). -/
def execSubReg (x y : Reg) (s : State) : Answer :=
  .next (s.setFlagThenV x (noBorrowOf (s.getV x) (s.getV y)) (s.getV x - s.getV y)).advance

/-- 8xy7 SUBN Vx, Vy (R149, R140). -/
def execSubnReg (x y : Reg) (s : State) : Answer :=
  .next (s.setFlagThenV x (noBorrowOf (s.getV y) (s.getV x)) (s.getV y - s.getV x)).advance

/-- 8xy6 SHR Vx (R150, R140): V[y] is neither read nor written. -/
def execShr (x _y : Reg) (s : State) : Answer :=
  .next (s.setFlagThenV x (lowBitOf (s.getV x)) (s.getV x >>> 1)).advance

/-- 8xyE SHL Vx (R151, R140): V[y] is neither read nor written. -/
def execShl (x _y : Reg) (s : State) : Answer :=
  .next (s.setFlagThenV x (highBitOf (s.getV x)) (s.getV x <<< 1)).advance

/-- Cxkk RND Vx, kk (R152): the random byte is the free value `Config.rand`, a new one at every RND (R246). DESIGN
CHOICE (log entry 5); safe. -/
def execRnd (x : Reg) (kk : Byte) (s : State) : Answer :=
  .next (s.setV x (Config.rand s.randDraws &&& kk)).countRand.advance

end Sys2Proof.Machine
end

