-- ==== Sys2Proof/Machine/Control.lean ====
section
/-! DEFINITION. The control-transfer instructions (40_step_and_control.md). -/

namespace Sys2Proof.Machine

/-- 00EE RET (R123). -/
def execRet (s : State) : Answer :=
  if s.sp = 0 then takeFault s .stackUnderflow (some (encode .ret))
  else .next (s.pop.goto s.topOfStack)

/-- 1nnn JP nnn (R124). -/
def execJp (nnn : Addr) (s : State) : Answer := .next (s.goto (nnn.setWidth 16))

/-- 2nnn CALL nnn (R125): the saved address is PC + 2. -/
def execCall (nnn : Addr) (s : State) : Answer :=
  if s.sp = Config.stackDepth then takeFault s .stackOverflow (some (encode (.call nnn)))
  else .next ((s.push s.nextPc).goto (nnn.setWidth 16))

/-- 3xkk SE Vx, kk (R126). -/
def execSeImm (x : Reg) (kk : Byte) (s : State) : Answer := .next (s.skipIf (s.getV x == kk))

/-- 4xkk SNE Vx, kk (R127). -/
def execSneImm (x : Reg) (kk : Byte) (s : State) : Answer := .next (s.skipIf (s.getV x != kk))

/-- 5xy0 SE Vx, Vy (R128). -/
def execSeReg (x y : Reg) (s : State) : Answer := .next (s.skipIf (s.getV x == s.getV y))

/-- 9xy0 SNE Vx, Vy (R129). -/
def execSneReg (x y : Reg) (s : State) : Answer := .next (s.skipIf (s.getV x != s.getV y))

/-- Bnnn JP V0, nnn (R130): the register is always V0; the sum is not masked. -/
def execJpV0 (nnn : Addr) (s : State) : Answer :=
  .next (s.goto (nnn.setWidth 16 + (s.getV 0).setWidth 16))

end Sys2Proof.Machine
end

