-- ==== Sys2Proof/Machine/Display.lean ====
section
/-! DEFINITION. The display instructions (43_display.md). -/

namespace Sys2Proof.Machine

/-- 00E0 CLS (R190). -/
def execCls (s : State) : Answer := .next (s.showScreen Screen.clear).advance

/-- The framebuffer and the collision a draw of n rows leaves, from the state before it (R191). -/
def State.drawn (s : State) (x y : Reg) (n : Nibble) : Drawing :=
  drawSprite s.spriteByte (s.anchorX x) (s.anchorY y) n.toNat s.fb

/-- Dxyn DRW Vx, Vy, n (R191): the anchor is taken before VF is written; VF is always written. -/
def execDrw (x y : Reg) (n : Nibble) (s : State) : Answer :=
  match s.drawFault n with
  | some c => takeFault s c (some (encode (.drw x y n)))
  | none =>
    .next ((s.setV vf (flagByte (s.drawn x y n).hit)).showScreen (s.drawn x y n).fb).advance

end Sys2Proof.Machine
end

