-- ==== Sys2Proof/Machine/IndexMem.lean ====
section
/-! DEFINITION. Index register and memory instructions (42_index_memory.md). None but the first three writes I. -/

namespace Sys2Proof.Machine

/-- Annn LD I, nnn (R170). -/
def execLdI (nnn : Addr) (s : State) : Answer := .next (s.setI (nnn.setWidth 16)).advance

/-- Fx1E ADD I, Vx (R171): modulo 65536, no flag effect. -/
def execAddI (x : Reg) (s : State) : Answer := .next (s.setI (s.i + (s.getV x).setWidth 16)).advance

/-- Fx29 LD F, Vx (R172): the whole of V[x], not masked. -/
def execLdF (x : Reg) (s : State) : Answer :=
  .next (s.setI (BitVec.ofNat 16 (Config.fontBase + Config.glyphBytes * (s.getV x).toNat))).advance

/-- Fx33 LD B, Vx (R173). -/
def execLdB (x : Reg) (s : State) : Answer :=
  match s.rangeFault 2 with
  | some c => takeFault s c (some (encode (.ldB x)))
  | none => .next (s.setMem (s.mem.writeBytes (s.addr 0) (bcdDigits (s.getV x)))).advance

/-- Fx55 LD [I], Vx (R174): I is not changed. -/
def execLdMemVx (x : Reg) (s : State) : Answer :=
  match s.rangeFault x.toNat with
  | some c => takeFault s c (some (encode (.ldMemVx x)))
  | none => .next (s.setMem (s.mem.writeBytes (s.addr 0) (s.blockOut x))).advance

/-- Fx65 LD Vx, [I] (R175): I is not changed. -/
def execLdVxMem (x : Reg) (s : State) : Answer :=
  match s.rangeFault x.toNat with
  | some c => takeFault s c (some (encode (.ldVxMem x)))
  | none => .next (s.blockIn x).advance

end Sys2Proof.Machine
end

