-- ==== Sys2Proof/Machine/KeysTimers.lean ====
section
/-! DEFINITION. Key and timer instructions (44_keys_timers.md). -/

namespace Sys2Proof.Machine

/-- The key numbered by V[x], or the fault of an index above 15 (R216): the value is not masked. -/
def State.keyIndexed (s : State) (x : Reg) : Except Fault Key :=
  if (s.getV x).toNat > 15 then .error (.keyRange (s.getV x)) else .ok ((s.getV x).setWidth 4)

/-- Ex9E SKP Vx (R210). -/
def execSkp (x : Reg) (s : State) : Answer :=
  match s.keyIndexed x with
  | .error c => takeFault s c (some (encode (.skp x)))
  | .ok k => .next (s.skipIf (s.keyDown k))

/-- ExA1 SKNP Vx (R211). -/
def execSknp (x : Reg) (s : State) : Answer :=
  match s.keyIndexed x with
  | .error c => takeFault s c (some (encode (.sknp x)))
  | .ok k => .next (s.skipIf (!s.keyDown k))

/-- Fx07 LD Vx, DT (R213). -/
def execLdVxDT (x : Reg) (s : State) : Answer := .next (s.setV x s.dt).advance

/-- Fx0A LD Vx, K (R212): with no key pressed the step changes nothing, and the same word is fetched again. -/
def execLdVxK (x : Reg) (s : State) : Answer :=
  match selectKey s.pressedKeys s.keyDraws with
  | none => .next s
  | some k => .next (s.setV x (k.setWidth 8)).countKeyWait.advance

/-- Fx15 LD DT, Vx (R214). -/
def execLdDTVx (x : Reg) (s : State) : Answer := .next (s.setDT (s.getV x)).advance

/-- Fx18 LD ST, Vx (R215): sound_active is not changed. -/
def execLdSTVx (x : Reg) (s : State) : Answer := .next (s.setST (s.getV x)).advance

end Sys2Proof.Machine
end

