-- ==== Sys2Proof/Machine/Cycle.lean ====
section
/-! DEFINITION. The STEP event (R120): fetch, decode, dispatch, commit, and the diagnostic it outputs. Step.lean calls
what is here. -/

namespace Sys2Proof.Machine

/-- The fetch (R122): the big-endian word at PC, or the fault when PC > 4094; the address recorded is PC when PC itself
is out of range, else 4096. -/
def fetch (s : State) : Except Fault Word :=
  if s.pc.toNat > 4094 then .error (.memRange (if s.pc.toNat > 4095 then s.pc else 4096))
  else .ok (s.mem.readWord s.pc.toNat)

/-- An UNKNOWN word (R96): PC + 2 and nothing else; its diagnostic is `stepDiag`. -/
def execUnknown (s : State) : Answer := .next s.advance

/-- The execution of a fetched word (R120). -/
def execWord (op : Word) (s : State) : Answer :=
  match decode op with
  | .ok i => exec i s
  | .error _ => execUnknown s

/-- The STEP event (R120). With the fault latch set it does nothing (R121). -/
def stepEvent (s : State) : Answer :=
  match s.fault with
  | some _ => .next s
  | none =>
    match fetch s with
    | .error c => takeFault s c none
    | .ok op => execWord op s

/-- The diagnostic (R235): the address of an UNKNOWN word, and the word. -/
structure Diagnostic where
  pc : Word
  op : Word
  deriving DecidableEq, Repr

/-- The diagnostic that the STEP event outputs in this state (R96, R235): an output of that step, not state (R39).
DEDUCED (log entry 12); safe. -/
def stepDiag (s : State) : Option Diagnostic :=
  match s.fault with
  | some _ => none
  | none =>
    match fetch s with
    | .error _ => none
    | .ok op =>
      match decode op with
      | .ok _ => none
      | .error _ => some ⟨s.pc, op⟩

/-- The state in which the next STEP event runs the instruction of this word: the word stored at PC, high byte first
(R90). A fetch also needs an empty fault latch and a PC of at most 4094; where the state has them, they stay. -/
def placeWord (s : State) (w : Word) : State :=
  let pc : Word := if s.pc.toNat ≤ 4094 then s.pc else Config.pcReset
  { s with pc := pc, fault := none, mem := s.mem.writeWord pc.toNat w }

end Sys2Proof.Machine
end

