-- ==== Sys2Proof/Machine/Step.lean ====
section
/-! DEFINITION. The step of the host's interface: the STEP event of the spec (R120). The host's other events are in
Events.lean (log entry 4). -/

namespace Sys2Proof.Machine

/-- One STEP event. -/
def step (s : State) : Host.Outcome State Fault Refusal := stepEvent s

/-- s with the instruction of the low nbits bits of w stored where the next step fetches it (log entry 7). -/
def State.withFetchWord (s : State) (nbits w : Nat) : State := placeWord s (tableWord nbits w)

end Sys2Proof.Machine
end

