-- ==== Sys2Proof/Machine/Events.lean ====
section
/-! DEFINITION. The host interface as atomic events and read ports (R238, R242, R270). -/

namespace Sys2Proof.Machine

/-- The host events that can change the machine (R242). The random byte of STEP is the free value `Config.rand`. -/
inductive Event where
  /-- RESET(rom) -/
  | reset (rom : List Byte)
  /-- STEP -/
  | step
  /-- TICK -/
  | tick
  /-- KEY_SET(k, b) -/
  | keySet (k : Key) (b : Bool)
  /-- DRAW_ACK -/
  | drawAck
  deriving DecidableEq, Repr

/-- A timer after one TICK (R238): decremented while nonzero, never below 0. -/
def tickTimer (t : Byte) : Byte := if t = 0 then 0 else t - 1

/-- TICK on a machine whose fault latch is empty (R238): sound_active tells whether ST was nonzero before. -/
def State.ticked (s : State) : State :=
  { s with dt := tickTimer s.dt, st := tickTimer s.st, soundActive := s.st != 0 }

/-- `draw_pending <- 0` (R242). -/
def State.drawAcked (s : State) : State := { s with drawPending := false }

/-- An event that does nothing while the fault latch is set (R233). -/
def unlessLatched (s t : State) : State := if s.fault.isSome then s else t

/-- The state RESET(rom) leaves, whatever the state before (R270). The counters of the free values are no state of the
core: the sources they number go on (log entries 5 and 6). -/
def State.resetWith (s : State) (rom : List Byte) : State :=
  { State.reset with
    mem := Memory.writeBytes [] Config.romBase rom, randDraws := s.randDraws, keyDraws := s.keyDraws }

/-- One host event (R242). A RESET whose ROM does not fit is refused, and the machine keeps its state (R271).
DEDUCED (log entry 13); safe. -/
def deliver (e : Event) (s : State) : Answer :=
  match e with
  | .reset rom => if rom.length ≤ Config.romMax then .next (s.resetWith rom) else .refused .romTooLong
  | .step => step s
  | .tick => .next (unlessLatched s s.ticked)
  | .keySet k b => .next (unlessLatched s (s.setKey k b))
  | .drawAck => .next (unlessLatched s s.drawAcked)

/-- A history (R241): events one after another, in any order and ratio; a refused event did not happen, so it leaves
the state as it was. -/
def runEvents : List Event → State → State
  | [], s => s
  | e :: rest, s =>
    match deliver e s with
    | .next t => runEvents rest t
    | .fault _ => runEvents rest s
    | .refused _ => runEvents rest s

/-- The read port FB_GET(x, y) (R77, R242). -/
def fbGet (s : State) (x y : Nat) : Except Refusal Bool :=
  if x < Config.fbWidth ∧ y < Config.fbHeight then .ok (s.fb.get x y) else .error .fbGetRange

/-- The read port MEM_PEEK(addr) (R79, R242). -/
def memPeek (s : State) (addr : Nat) : Except Refusal Byte :=
  if addr < Config.memSize then .ok (s.mem.read addr) else .error .memPeekRange

/-- The results of a STEP event (R242): its diagnostic, and the fault latch after it. -/
structure StepResult where
  diag : Option Diagnostic
  fault : Option FaultRecord
  deriving DecidableEq, Repr

/-- What the host is told of a STEP event in state s (R242). -/
def stepResult (s : State) : StepResult where
  diag := stepDiag s
  fault := (runEvents [.step] s).fault

end Sys2Proof.Machine
end

