-- ==== Sys2Proof/Machine/Ports.lean ====
section
/-! DEFINITION. The port-level rendering of the host interface (R243), over the events of Events.lean. The spec calls
it a sketch of its own; what it does not state is the model's choice, named here and in log entries 8 and 14. -/

namespace Sys2Proof.Machine

/-- The inputs of one clock cycle (R243). rand_in is the free value `Config.rand` (log entry 8). The coordinates and
the address of the read ports are as wide as R243 says, so none is out of range. -/
structure PortIn where
  rst : Bool
  romWe : Bool
  romAddr : BitVec 12
  romData : Byte
  stepEn : Bool
  tickEn : Bool
  keyIn : Vector Bool 16
  drawAck : Bool
  fbX : BitVec 6
  fbY : BitVec 5
  dbgAddr : BitVec 12
  deriving DecidableEq, Repr

/-- The outputs of one cycle (R243). Where fault_valid or diag_valid is false, or nothing is recorded, the port has no
value. DESIGN CHOICE (log entry 8). -/
structure PortOut where
  drawPending : Bool
  soundActive : Bool
  faultValid : Bool
  faultCode : Option (BitVec 3)
  faultPc : Option Word
  faultOp : Option Word
  faultInfo : Option Word
  diagValid : Bool
  diagPc : Option Word
  diagOp : Option Word
  fbQ : Bool
  dbgQ : Byte
  deriving DecidableEq, Repr

/-- The core behind its ports, and the ROM image that the load channel has received while rst is held (none while rst
is not held). The image is the argument of a RESET to come, no state of the core (R39). -/
structure PortState where
  core : State
  loading : Option (List Byte)
  deriving DecidableEq, Repr

/-- Byte k of an image written, the image first made long enough with zeros, which is what RESET leaves outside the ROM
(R270). -/
def writeImage (image : List Byte) (k : Nat) (b : Byte) : List Byte :=
  (image ++ List.replicate (k + 1 - image.length) 0).set k b

/-- The image after a cycle with rst. DESIGN CHOICE (log entry 14): rom_addr counts from the first byte of the ROM, so
byte k goes to 0x200 + k. -/
def PortState.received (s : PortState) (p : PortIn) : List Byte :=
  let image := s.loading.getD []
  if p.romWe then writeImage image p.romAddr.toNat p.romData else image

/-- The core in a cycle without rst, before the events of that cycle: if rst was held until now, the one RESET with the
image received has happened, or was refused because the image is too long (R271). DESIGN CHOICE (log entry 14). -/
def PortState.released (s : PortState) : State :=
  match s.loading with
  | none => s.core
  | some rom => runEvents [.reset rom] s.core

/-- key_in sampled into keys (R243), as KEY_SET events are: nothing while the fault latch is set. DESIGN CHOICE (log
entry 8): a cycle without rst and without another event samples them too. -/
def State.sampleKeys (s : State) (k : Vector Bool 16) : State := unlessLatched s { s with keys := k }

/-- An event that happens in a cycle in which its enable is 1. -/
def eventWhen (c : Bool) (e : Event) : List Event := if c then [e] else []

/-- The state before the STEP of a cycle: keys sampled, draw_ack, then the TICK (R243). The acknowledge comes before
the step, so that a step that sets draw_pending leaves it set. -/
def State.beforeStep (s : State) (p : PortIn) : State :=
  runEvents (eventWhen p.drawAck .drawAck ++ eventWhen p.tickEn .tick) (s.sampleKeys p.keyIn)

/-- One clock cycle. DESIGN CHOICE (log entry 14), as R243 orders rst against no other input: a cycle with rst only
receives a ROM byte; step_en, tick_en, draw_ack and key_in do nothing in it (no STEP, no TICK, no acknowledge, no
diagnostic, keys not sampled), and the core waits. The RESET happens at the start of the first cycle without rst, before
the other events of that cycle. -/
def clock (p : PortIn) (s : PortState) : PortState :=
  if p.rst then { s with loading := some (s.received p) }
  else { core := runEvents (eventWhen p.stepEn .step) (s.released.beforeStep p), loading := none }

/-- Clock cycles one after another. -/
def clocks (ps : List PortIn) (s : PortState) : PortState := ps.foldl (fun t p => clock p t) s

/-- The diagnostic of a cycle: that of its STEP, if it has one. -/
def clockDiag (p : PortIn) (s : PortState) : Option Diagnostic :=
  if p.rst then none else if p.stepEn then stepDiag (s.released.beforeStep p) else none

/-- The outputs of a cycle that starts in s (R243). DESIGN CHOICE (log entry 8): they show the core after the events of
the cycle, the read ports too. -/
def clockOut (p : PortIn) (s : PortState) : PortOut :=
  let t := (clock p s).core
  let d := clockDiag p s
  { drawPending := t.drawPending
    soundActive := t.soundActive
    faultValid := t.fault.isSome
    faultCode := t.fault.map fun r => faultCode r.cause
    faultPc := t.fault.map FaultRecord.pc
    faultOp := t.fault.bind FaultRecord.op
    faultInfo := t.fault.bind fun r => faultInfo r.cause
    diagValid := d.isSome
    diagPc := d.map Diagnostic.pc
    diagOp := d.map Diagnostic.op
    fbQ := t.fb.get p.fbX.toNat p.fbY.toNat
    dbgQ := t.mem.read p.dbgAddr.toNat }

/-- The cycles that load an image: rst and rom_we held, byte k at rom_addr k, the other inputs those of p. The address is
12 bits wide, so the image has at most 4096 bytes. -/
def romCyclesFrom (p : PortIn) : Nat → List Byte → List PortIn
  | _, [] => []
  | k, b :: rest =>
    { p with rst := true, romWe := true, romAddr := BitVec.ofNat 12 k, romData := b } :: romCyclesFrom p (k + 1) rest

end Sys2Proof.Machine
end

