-- ==== Sys2Proof/Safety.lean ====
section
/-! DEFINITION. What counts as a safe run and as the end of one, and the invariant of the machine, in the terms the
statements use. -/

namespace Sys2Proof.Machine

/-- The machine is running: no fault is latched (R233). -/
def State.running (s : State) : Prop := s.fault = none

/-- The end of a run that the spec recommends (R251): PC = a, and the word at a is `JP a`, with a ≤ 0xFFE. `END_OF_RUN`
is open; DESIGN CHOICE (log entry 9). -/
def State.ended (s : State) : Prop :=
  s.running ∧ s.pc.toNat ≤ 0xFFE ∧ s.mem.readWord s.pc.toNat = 0x1000 ||| s.pc

/-- What holds at reset and after every event: memory is in canonical form; PC is at most 0x10FE (R25, R26); every
stack entry is at most 4096 (R123, R125); stack[0] is as reset left it (R29); a latched fault's record holds the PC,
which was not committed (R232). -/
structure State.Inv (s : State) : Prop where
  memory : s.mem.wf = true
  pcRange : s.pc.toNat ≤ 0x10FE
  stackRange : ∀ k, (s.slot k).toNat ≤ 4096
  slotZero : s.slot 0 = 0
  latchPc : ∀ r, s.fault = some r → r.pc = s.pc

/-- Nothing but the general registers and PC differs; every byte of memory reads as before. -/
def OnlyRegistersAndPc (s t : State) : Prop :=
  t = { s with v := t.v, pc := t.pc } ∧ ∀ a : Nat, t.mem.read a = s.mem.read a

/-- The registers are those of `regs`, PC has advanced by 2, and nothing else has changed. -/
def WritesRegisters (s t : State) (regs : Reg → Byte) : Prop :=
  (∀ r, t.getV r = regs r) ∧ t.pc = s.pc + 2 ∧ OnlyRegistersAndPc s t

/-- The registers of s with V[x] = b. -/
def State.withV (s : State) (x : Reg) (b : Byte) (r : Reg) : Byte := if r = x then b else s.getV r

/-- The registers of s with VF = 1 or 0 by c and then V[x] = b: with x = 0xF the result stays (R140). -/
def State.withFlagV (s : State) (x : Reg) (c : Prop) [Decidable c] (b : Byte) (r : Reg) : Byte :=
  if r = x then b else if r = 0xF then (if c then 1 else 0) else s.getV r

/-- The state after a fault of word op in state s (R232): only the latch is written. -/
def State.faulted (s : State) (c : Fault) (op : Option Word) : State := { s with fault := some ⟨c, s.pc, op⟩ }

/-- A MEM_RANGE fault of instruction i in state s, which records max(I, 4096) (R176). -/
def RangeFaults (i : Instr) (s : State) : Prop :=
  ∃ a : Word, a.toNat = max s.i.toNat 4096 ∧ exec i s = .next (s.faulted (.memRange a) (some (encode i)))

/-- R192's `hit(px, py)` for a sprite of n rows whose row r has the byte `rows r`, anchored at (x0, y0): some bit of the
sprite is 1 and lands on the pixel (px, py) of the screen. -/
def SpriteLands (rows : Nat → Byte) (x0 y0 n px py : Nat) : Prop :=
  px < 64 ∧ py < 32 ∧
    ∃ r c : Nat, r < n ∧ c < 8 ∧ py = y0 + r ∧ px = x0 + c ∧ (rows r).getLsbD (7 - c) = true

/-- Every byte of memory outside a .. a + len - 1 reads the same in both states. -/
def SameBytesOutside (a len : Nat) (s t : State) : Prop :=
  ∀ b : Nat, ¬(a ≤ b ∧ b < a + len) → t.mem.read b = s.mem.read b

end Sys2Proof.Machine
end

