-- ==== Sys2Proof/Certificates/Slice0/Obligations.lean ====
section
/-! DEFINITION. The statements about the model, for the provers. Each docstring names the rule of spec/ it formalises;
where a clause rests on a decision or inference that the spec marks as its own, or on a choice of the model, it says so. -/

open Sys2Proof Sys2Proof.Machine

/-! ## Encoding -/

/-- The encoding examples of R102 (the spec's inference from R91 and R94), the bytes with them. -/
def Obligations.WrittenWordsDecode : Prop :=
  decode 0x632A = .ok (.ldImm 3 0x2A) ∧ decode 0x8124 = .ok (.addReg 1 2) ∧ decode 0xD015 = .ok (.drw 0 1 5) ∧
  decode 0x1200 = .ok (.jp 0x200) ∧ decode 0xF255 = .ok (.ldMemVx 2) ∧ decode 0xEAA1 = .ok (.sknp 0xA) ∧
  encode (.ldImm 3 0x2A) = 0x632A ∧ encode (.addReg 1 2) = 0x8124 ∧ encode (.drw 0 1 5) = 0xD015 ∧
  encode (.jp 0x200) = 0x1200 ∧ encode (.ldMemVx 2) = 0xF255 ∧ encode (.sknp 0xA) = 0xEAA1 ∧
  bytesOfWord 0x632A = (0x63, 0x2A) ∧ bytesOfWord 0x8124 = (0x81, 0x24) ∧ bytesOfWord 0xD015 = (0xD0, 0x15) ∧
  bytesOfWord 0x1200 = (0x12, 0x00) ∧ bytesOfWord 0xF255 = (0xF2, 0x55) ∧ bytesOfWord 0xEAA1 = (0xEA, 0xA1)

/-- Every instruction, with every operand at every value, is read back from its word (R91 to R94). -/
def Obligations.DecodeOfEncode : Prop := ∀ i : Instr, decode (encode i) = .ok i

/-- No word is read as an instruction it is not the word of: the decoder drops no bit (R91 to R95). -/
def Obligations.EncodeOfDecode : Prop := ∀ (w : Word) (i : Instr), decode w = .ok i → encode i = w

/-- The decoder is the opcode map (R94, R95): it accepts a word exactly when some row matches it, reads it as an
instruction of a matching row, and no word matches two rows. The patterns are the spec's decision D1, the exact
matching its decision D4. -/
def Obligations.DecodeFollowsOpcodeMap : Prop :=
  (∀ w : Word, (∃ i, decode w = .ok i) ↔ ∃ r ∈ opcodeRows, r.matchesWord w = true) ∧
  (∀ (w : Word) (i : Instr), decode w = .ok i → (rowOf i).matchesWord w = true) ∧
  (∀ w : Word, ∀ r ∈ opcodeRows, ∀ q ∈ opcodeRows, r.matchesWord w = true → q.matchesWord w = true → r = q) ∧
  opcodeRows.length = 34

/-- The UNKNOWN words are the six groups of R97 and no others (the spec's inference from R94 and R95). -/
def Obligations.UnknownGroupsAreExact : Prop :=
  ∀ w : Word, let f := fieldsOf w
    (decode w = .error .zeroGroup ↔ f.n1 = 0 ∧ w ≠ 0x00E0 ∧ w ≠ 0x00EE) ∧
    (decode w = .error .fiveGroup ↔ f.n1 = 5 ∧ f.n ≠ 0) ∧
    (decode w = .error .eightGroup ↔ f.n1 = 8 ∧ f.n ∈ [8, 9, 0xA, 0xB, 0xC, 0xD, 0xF]) ∧
    (decode w = .error .nineGroup ↔ f.n1 = 9 ∧ f.n ≠ 0) ∧
    (decode w = .error .eGroup ↔ f.n1 = 0xE ∧ f.kk ∉ [0x9E, 0xA1]) ∧
    (decode w = .error .fGroup ↔ f.n1 = 0xF ∧ f.kk ∉ [0x07, 0x0A, 0x15, 0x18, 0x1E, 0x29, 0x33, 0x55, 0x65]) ∧
    decode w ≠ .error .tooShort

/-! ## The step and its faults -/

/-- When the two bytes at PC decode to an instruction, the step is that instruction (R90, R120). The step adds nothing
around it: the instruction commits PC itself. -/
def Obligations.StepRunsDecodedInstruction : Prop :=
  ∀ (s : State) (i : Instr), s.running → s.pc.toNat ≤ 4094 →
    decodeBytes [s.mem.read s.pc.toNat, s.mem.read (s.pc.toNat + 1)] = .ok (i, []) → step s = exec i s

/-- An UNKNOWN word is a no-op with a diagnostic (R96). What the diagnostic holds is the spec's decision
D19, that matching is exact its decision D4. -/
def Obligations.UnknownWordOnlyAdvances : Prop :=
  ∀ (s : State) (op : Word) (g : Reject), s.running → fetch s = .ok op → decode op = .error g →
    step s = .next { s with pc := s.pc + 2 } ∧ (s.pc + 2).toNat = s.pc.toNat + 2 ∧ stepDiag s = some ⟨s.pc, op⟩

/-- A step outputs a diagnostic exactly when its word is UNKNOWN, and it is (PC, op) (R235; the content is the spec's
decision D19). -/
def Obligations.DiagnosticExactlyForUnknown : Prop :=
  ∀ (s : State) (d : Diagnostic), stepDiag s = some d ↔
    s.running ∧ fetch s = .ok d.op ∧ (∃ g, decode d.op = .error g) ∧ d.pc = s.pc

/-- A fetch above address 4094 faults, with PC or 4096 as the address recorded and no word (R122, the spec's inference
from R63 and R120; the record is its decision D20). -/
def Obligations.FetchBeyondMemoryFaults : Prop :=
  ∀ s : State, s.running → 4094 < s.pc.toNat →
    step s = .next (s.faulted (.memRange (if 4095 < s.pc.toNat then s.pc else 4096)) none)

/-- While a fault is latched STEP, TICK, KEY_SET and DRAW_ACK do nothing and no diagnostic comes; the read ports answer
as if it were not (R121, R233; the latch is the spec's decisions D9 and D32). -/
def Obligations.LatchedMachineStands : Prop :=
  ∀ (s : State) (r : FaultRecord), s.fault = some r →
    step s = .next s ∧ stepDiag s = none ∧ deliver .step s = .next s ∧ deliver .tick s = .next s ∧
    (∀ k b, deliver (.keySet k b) s = .next s) ∧ deliver .drawAck s = .next s ∧
    (∀ x y, fbGet s x y = fbGet { s with fault := none } x y) ∧
    (∀ a, memPeek s a = memPeek { s with fault := none } a)

/-- A step that faults writes the latch and nothing else: no register, no byte, no pixel, no flag, and PC is not
committed (R232; precise faults are the spec's decisions D8 and D9). -/
def Obligations.FaultEntryWritesOnlyTheLatch : Prop :=
  ∀ s t : State, s.running → step s = .next t → ¬t.running → ∃ c op, t = s.faulted c op

/-- The faults of R231: which instruction raises which, when, and with which record. The codes and records are the
spec's decision D20. -/
def Obligations.FaultsHaveTheirCauses : Prop :=
  (∀ (i : Instr) (s t : State) (r : FaultRecord), s.running → exec i s = .next t → t.fault = some r →
    r.pc = s.pc ∧ r.op = some (encode i) ∧
    match r.cause with
    | .memRange a => a.toNat = max s.i.toNat 4096 ∧
        ((∃ x y n, i = .drw x y n ∧ n ≠ 0 ∧ 4095 < s.i.toNat + (n.toNat - 1)) ∨
         (∃ x, i = .ldB x ∧ 4095 < s.i.toNat + 2) ∨
         (∃ x, i = .ldMemVx x ∧ 4095 < s.i.toNat + x.toNat) ∨
         (∃ x, i = .ldVxMem x ∧ 4095 < s.i.toNat + x.toNat))
    | .stackOverflow => s.sp = 15 ∧ ∃ nnn, i = .call nnn
    | .stackUnderflow => s.sp = 0 ∧ i = .ret
    | .keyRange v => 15 < v.toNat ∧ ∃ x, v = s.getV x ∧ (i = .skp x ∨ i = .sknp x)) ∧
  (∀ a, faultCode (.memRange a) = 1) ∧ faultCode .stackOverflow = 2 ∧ faultCode .stackUnderflow = 3 ∧
  (∀ v, faultCode (.keyRange v) = 4)

/-- Every STEP event, from every state, answers with a next state: no word stops the machine outside its own fault latch
(R10, R98). -/
def Obligations.StepAlwaysAnswers : Prop := ∀ s : State, ∃ t, step s = .next t

/-- How PC moves, all the cases of R25, for every word a running machine fetches (the spec's inference from its
instruction rules). PC + 2 and PC + 4 never wrap (R26). -/
def Obligations.PcMovesAsListed : Prop :=
  ∀ (s t : State) (op : Word), s.running → fetch s = .ok op → step s = .next t →
    (¬t.running → t.pc = s.pc) ∧
    (t.running → t.pc.toNat =
      match decode op with
      | .ok (.seImm x kk) => if s.getV x = kk then s.pc.toNat + 4 else s.pc.toNat + 2
      | .ok (.sneImm x kk) => if s.getV x ≠ kk then s.pc.toNat + 4 else s.pc.toNat + 2
      | .ok (.seReg x y) => if s.getV x = s.getV y then s.pc.toNat + 4 else s.pc.toNat + 2
      | .ok (.sneReg x y) => if s.getV x ≠ s.getV y then s.pc.toNat + 4 else s.pc.toNat + 2
      | .ok (.skp x) => if s.keyDown ((s.getV x).setWidth 4) then s.pc.toNat + 4 else s.pc.toNat + 2
      | .ok (.sknp x) => if s.keyDown ((s.getV x).setWidth 4) then s.pc.toNat + 2 else s.pc.toNat + 4
      | .ok (.jp nnn) => nnn.toNat
      | .ok (.jpV0 nnn) => nnn.toNat + (s.getV 0).toNat
      | .ok (.call nnn) => nnn.toNat
      | .ok .ret => (s.slot s.sp).toNat
      | .ok (.ldVxK _) => if ∃ k, s.keyDown k = true then s.pc.toNat + 2 else s.pc.toNat
      | _ => s.pc.toNat + 2)

/-! ## The invariant -/

/-- The state after reset meets the invariant (R42). Two of its clauses rest on choices: that memory is canonical is the
form of the model's own data (log entry 10, DESIGN CHOICE), and that the stack entries are zero is the spec's decision
D16 (log entry 3). -/
def Obligations.InvariantAtReset : Prop := State.reset.Inv

/-- Every step keeps the invariant: memory canonical, PC at most 0x10FE, stack entries at most 4096, stack[0] never
written, the latch's PC the frozen PC (R25, R26, R29, R123, R232). The canonical form is the model's own choice (log
entry 10) and rests on no rule; that a fault commits no PC is the spec's decisions D8 and D9; that CALL never wraps
SP onto stack[0] is its decision D10; the value 0 of stack[0] is the reset value of its decision D16 (log entry 3). -/
def Obligations.StepKeepsInvariant : Prop := ∀ s t : State, s.Inv → step s = .next t → t.Inv

/-- Every history of host events, in any order and ratio, keeps the invariant (R241). Its clauses rest on the
choices that `StepKeepsInvariant` names: the canonical memory on log entry 10, the zero of stack[0], which every RESET
sets again, on the spec's decision D16 (log entry 3), the faults on its decisions D8, D9 and D10. -/
def Obligations.HistoriesKeepInvariant : Prop := ∀ (es : List Event) (s : State), s.Inv → (runEvents es s).Inv

/-- The canonical form does its work: two canonical memories with equal bytes are equal data. The form is the model's
own choice (log entry 10); it rests on no rule. -/
def Obligations.CanonicalMemoriesAreEqual : Prop :=
  ∀ m n : Memory, m.wf = true → n.wf = true → (∀ a : Nat, m.read a = n.read a) → m = n

/-- A byte that LD [I], Vx stores at the next PC is the high byte of the word the very next fetch reads (R75, the
spec's inference). -/
def Obligations.StoreSeenByNextFetch : Prop :=
  ∀ (s : State) (x k : Reg), s.mem.wf = true → s.i.toNat + x.toNat ≤ 4095 → k.toNat ≤ x.toNat →
    s.i.toNat + k.toNat = s.pc.toNat + 2 → s.pc.toNat + 2 ≤ 4094 →
    ∃ t w, exec (.ldMemVx x) s = .next t ∧ fetch t = .ok w ∧ w.toNat / 256 = (s.getV k).toNat

/-! ## Arithmetic and logic -/

/-- LD Vx, kk; LD Vx, Vy; OR; AND; XOR (R141 to R145): the word, the result, VF untouched, PC + 2, nothing else.
The bit patterns are the spec's decision D1 (log entry 1). -/
def Obligations.LoadAndLogicResults : Prop :=
  ∀ (x y : Reg) (kk : Byte) (s : State),
    decode (0x6#4 ++ x ++ kk) = .ok (.ldImm x kk) ∧ decode (0x8#4 ++ x ++ y ++ 0x0#4) = .ok (.ldReg x y) ∧
    decode (0x8#4 ++ x ++ y ++ 0x1#4) = .ok (.orReg x y) ∧ decode (0x8#4 ++ x ++ y ++ 0x2#4) = .ok (.andReg x y) ∧
    decode (0x8#4 ++ x ++ y ++ 0x3#4) = .ok (.xorReg x y) ∧
    (∃ t, exec (.ldImm x kk) s = .next t ∧ WritesRegisters s t (s.withV x kk)) ∧
    (∃ t, exec (.ldReg x y) s = .next t ∧ WritesRegisters s t (s.withV x (s.getV y))) ∧
    (∃ t, exec (.orReg x y) s = .next t ∧ WritesRegisters s t (s.withV x (s.getV x ||| s.getV y))) ∧
    (∃ t, exec (.andReg x y) s = .next t ∧ WritesRegisters s t (s.withV x (s.getV x &&& s.getV y))) ∧
    (∃ t, exec (.xorReg x y) s = .next t ∧ WritesRegisters s t (s.withV x (s.getV x ^^^ s.getV y)))

/-- ADD Vx, kk (R146): the sum modulo 256, no flag effect. The bit patterns are the spec's decision D1 (log entry 1). -/
def Obligations.AddImmediateResult : Prop :=
  ∀ (x : Reg) (kk : Byte) (s : State),
    decode (0x7#4 ++ x ++ kk) = .ok (.addImm x kk) ∧
    ∃ t, exec (.addImm x kk) s = .next t ∧
      WritesRegisters s t (s.withV x (BitVec.ofNat 8 (((s.getV x).toNat + kk.toNat) % 256)))

/-- ADD Vx, Vy (R147): the sum modulo 256, VF the carry, written first. The bit pattern is the spec's decision
D1 (log entry 1). -/
def Obligations.AddRegisterResult : Prop :=
  ∀ (x y : Reg) (s : State),
    decode (0x8#4 ++ x ++ y ++ 0x4#4) = .ok (.addReg x y) ∧
    ∃ t, exec (.addReg x y) s = .next t ∧
      WritesRegisters s t (s.withFlagV x ((s.getV x).toNat + (s.getV y).toNat > 255)
        (BitVec.ofNat 8 (((s.getV x).toNat + (s.getV y).toNat) % 256)))

/-- SUB and SUBN (R148, R149): the difference modulo 256, VF = 1 when there is no borrow. The rule at equality is the
spec's decision D15, the operand order with VF named its decision D14, the bit patterns its decision D1. -/
def Obligations.SubtractResults : Prop :=
  ∀ (x y : Reg) (s : State),
    decode (0x8#4 ++ x ++ y ++ 0x5#4) = .ok (.subReg x y) ∧ decode (0x8#4 ++ x ++ y ++ 0x7#4) = .ok (.subnReg x y) ∧
    (∃ t, exec (.subReg x y) s = .next t ∧
      WritesRegisters s t (s.withFlagV x ((s.getV x).toNat ≥ (s.getV y).toNat)
        (BitVec.ofNat 8 ((256 + (s.getV x).toNat - (s.getV y).toNat) % 256)))) ∧
    (∃ t, exec (.subnReg x y) s = .next t ∧
      WritesRegisters s t (s.withFlagV x ((s.getV y).toNat ≥ (s.getV x).toNat)
        (BitVec.ofNat 8 ((256 + (s.getV y).toNat - (s.getV x).toNat) % 256))))

/-- SHR and SHL (R150, R151): halving and doubling modulo 256, VF the bit shifted out; y is ignored. With
x = 0xF the operand read at the start is the spec's decision D14; the bit patterns are its decision D1. -/
def Obligations.ShiftResults : Prop :=
  ∀ (x y : Reg) (s : State),
    decode (0x8#4 ++ x ++ y ++ 0x6#4) = .ok (.shr x y) ∧ decode (0x8#4 ++ x ++ y ++ 0xE#4) = .ok (.shl x y) ∧
    (∃ t, exec (.shr x y) s = .next t ∧
      WritesRegisters s t (s.withFlagV x ((s.getV x).toNat % 2 = 1) (BitVec.ofNat 8 ((s.getV x).toNat / 2)))) ∧
    (∃ t, exec (.shl x y) s = .next t ∧
      WritesRegisters s t (s.withFlagV x ((s.getV x).toNat ≥ 128) (BitVec.ofNat 8 (2 * (s.getV x).toNat % 256))))

/-- RND (R152): the random byte masked by kk. The byte is the free value `Config.rand` at the state's own counter, which
advances by one (the model's choice, log entry 5); that every masked value is possible cannot be stated of it. -/
def Obligations.RandomResult : Prop :=
  ∀ (x : Reg) (kk : Byte) (s : State),
    decode (0xC#4 ++ x ++ kk) = .ok (.rnd x kk) ∧
    ∃ t, exec (.rnd x kk) s = .next t ∧ (∀ r, t.getV r = s.withV x (Config.rand s.randDraws &&& kk) r) ∧
      t.getV x &&& ~~~kk = 0 ∧ t.randDraws = s.randDraws + 1 ∧ t.pc = s.pc + 2 ∧
      t = { s with v := t.v, pc := t.pc, randDraws := t.randDraws } ∧ ∀ a : Nat, t.mem.read a = s.mem.read a

/-! ## Control transfer -/

/-- JP nnn (R124): PC is nnn and nothing else changes. The bit pattern is the spec's decision D1 (log entry 1). -/
def Obligations.JumpResult : Prop :=
  ∀ (nnn : Addr) (s : State),
    decode (0x1#4 ++ nnn) = .ok (.jp nnn) ∧
    ∃ a : Word, a.toNat = nnn.toNat ∧ exec (.jp nnn) s = .next { s with pc := a }

/-- JP V0, nnn (R130): PC is nnn + V0, not masked, and nothing else changes. The bit pattern is the spec's decision D1
(log entry 1). -/
def Obligations.IndexedJumpResult : Prop :=
  ∀ (nnn : Addr) (s : State),
    decode (0xB#4 ++ nnn) = .ok (.jpV0 nnn) ∧
    ∃ a : Word, a.toNat = nnn.toNat + (s.getV 0).toNat ∧ exec (.jpV0 nnn) s = .next { s with pc := a }

/-- CALL nnn (R125): PC + 2 on the stack, SP + 1, PC = nnn; with SP = 15 the fault STACK_OVERFLOW, which is the spec's
decision D10. -/
def Obligations.CallResult : Prop :=
  ∀ (nnn : Addr) (s : State),
    decode (0x2#4 ++ nnn) = .ok (.call nnn) ∧
    (s.sp ≠ 15 → ∃ t, exec (.call nnn) s = .next t ∧ t.sp.toNat = s.sp.toNat + 1 ∧
      (∀ k, t.slot k = if k.toNat = s.sp.toNat + 1 then s.pc + 2 else s.slot k) ∧ t.pc.toNat = nnn.toNat ∧
      t = { s with sp := t.sp, stack := t.stack, pc := t.pc } ∧ ∀ a : Nat, t.mem.read a = s.mem.read a) ∧
    (s.sp = 15 → exec (.call nnn) s = .next (s.faulted .stackOverflow (some (encode (.call nnn)))))

/-- RET (R123): PC is stack[SP], SP - 1, the entry kept; with SP = 0 the fault STACK_UNDERFLOW, which is the spec's
decision D10. -/
def Obligations.ReturnResult : Prop :=
  ∀ s : State,
    decode 0x00EE = .ok .ret ∧
    (s.sp ≠ 0 → ∃ t, exec .ret s = .next t ∧ t.pc = s.slot s.sp ∧ t.sp.toNat + 1 = s.sp.toNat ∧
      t = { s with pc := t.pc, sp := t.sp } ∧ (∀ k, t.slot k = s.slot k) ∧
      ∀ a : Nat, t.mem.read a = s.mem.read a) ∧
    (s.sp = 0 → exec .ret s = .next (s.faulted .stackUnderflow (some 0x00EE)))

/-- A call and then a return come back to the word after the call, with the stack as deep as before; only the slot the
call used may differ (R123, R125). -/
def Obligations.CallThenReturn : Prop :=
  ∀ (nnn : Addr) (s : State), s.sp ≠ 15 →
    ∃ t u, exec (.call nnn) s = .next t ∧ exec .ret t = .next u ∧ u.pc = s.pc + 2 ∧ u.sp = s.sp ∧
      (∀ k, k.toNat ≠ s.sp.toNat + 1 → u.slot k = s.slot k) ∧ u = { s with pc := u.pc, stack := u.stack }

/-- SE and SNE (R126 to R129): PC + 4 when the condition holds, else PC + 2; nothing else changes. A 5xyN or 9xyN word
with N not 0 is UNKNOWN. The bit patterns are the spec's decision D1 (log entry 1). -/
def Obligations.SkipResults : Prop :=
  ∀ (x y : Reg) (kk : Byte) (s : State),
    decode (0x3#4 ++ x ++ kk) = .ok (.seImm x kk) ∧ decode (0x4#4 ++ x ++ kk) = .ok (.sneImm x kk) ∧
    decode (0x5#4 ++ x ++ y ++ 0x0#4) = .ok (.seReg x y) ∧ decode (0x9#4 ++ x ++ y ++ 0x0#4) = .ok (.sneReg x y) ∧
    (∀ n : Nibble, n ≠ 0 → decode (0x5#4 ++ x ++ y ++ n) = .error .fiveGroup ∧
      decode (0x9#4 ++ x ++ y ++ n) = .error .nineGroup) ∧
    exec (.seImm x kk) s = .next { s with pc := if s.getV x = kk then s.pc + 4 else s.pc + 2 } ∧
    exec (.sneImm x kk) s = .next { s with pc := if s.getV x ≠ kk then s.pc + 4 else s.pc + 2 } ∧
    exec (.seReg x y) s = .next { s with pc := if s.getV x = s.getV y then s.pc + 4 else s.pc + 2 } ∧
    exec (.sneReg x y) s = .next { s with pc := if s.getV x ≠ s.getV y then s.pc + 4 else s.pc + 2 }

/-! ## Index register and memory -/

/-- LD I, nnn (R170; the instruction is the spec's decision D2): I is nnn, PC + 2, nothing else. -/
def Obligations.LoadIndexResult : Prop :=
  ∀ (nnn : Addr) (s : State),
    decode (0xA#4 ++ nnn) = .ok (.ldI nnn) ∧
    ∃ a : Word, a.toNat = nnn.toNat ∧ exec (.ldI nnn) s = .next { s with i := a, pc := s.pc + 2 }

/-- ADD I, Vx and LD F, Vx (R171, R172): I modulo 65536, and the font address of the whole of V[x]; no flag, PC + 2,
nothing else. The bit patterns are the spec's decision D1 (log entry 1). -/
def Obligations.AddIndexAndFontResults : Prop :=
  ∀ (x : Reg) (s : State),
    decode (0xF#4 ++ x ++ 0x1E#8) = .ok (.addI x) ∧ decode (0xF#4 ++ x ++ 0x29#8) = .ok (.ldF x) ∧
    (∃ a : Word, a.toNat = (s.i.toNat + (s.getV x).toNat) % 65536 ∧
      exec (.addI x) s = .next { s with i := a, pc := s.pc + 2 }) ∧
    (∃ a : Word, a.toNat = 0x050 + 5 * (s.getV x).toNat ∧
      exec (.ldF x) s = .next { s with i := a, pc := s.pc + 2 })

/-- LD B, Vx (R173): the three decimal digits at I, I + 1, I + 2 and no other byte; or the fault with no byte written.
The memory is canonical, as the invariant says. The range check is the spec's decisions D6 to D8. -/
def Obligations.BcdStoreResult : Prop :=
  ∀ (x : Reg) (s : State), s.mem.wf = true →
    decode (0xF#4 ++ x ++ 0x33#8) = .ok (.ldB x) ∧
    (s.i.toNat + 2 ≤ 4095 → ∃ t, exec (.ldB x) s = .next t ∧
      (t.mem.read (s.addr 0)).toNat = (s.getV x).toNat / 100 ∧
      (t.mem.read (s.addr 1)).toNat = (s.getV x).toNat / 10 % 10 ∧
      (t.mem.read (s.addr 2)).toNat = (s.getV x).toNat % 10 ∧
      SameBytesOutside (s.addr 0) 3 s t ∧ t = { s with mem := t.mem, pc := s.pc + 2 }) ∧
    (4095 < s.i.toNat + 2 → RangeFaults (.ldB x) s)

/-- LD [I], Vx (R174): V0..Vx at I .. I + x and no other byte, I unchanged; or the fault with no byte written. The
memory is canonical, as the invariant says. The range check is the spec's decisions D6 to D8. -/
def Obligations.BlockStoreResult : Prop :=
  ∀ (x : Reg) (s : State), s.mem.wf = true →
    decode (0xF#4 ++ x ++ 0x55#8) = .ok (.ldMemVx x) ∧
    (s.i.toNat + x.toNat ≤ 4095 → ∃ t, exec (.ldMemVx x) s = .next t ∧
      (∀ k : Reg, k.toNat ≤ x.toNat → t.mem.read (s.addr k.toNat) = s.getV k) ∧
      SameBytesOutside (s.addr 0) (x.toNat + 1) s t ∧ t = { s with mem := t.mem, pc := s.pc + 2 }) ∧
    (4095 < s.i.toNat + x.toNat → RangeFaults (.ldMemVx x) s)

/-- LD Vx, [I] (R175): V0..Vx from I .. I + x, the registers above x and I unchanged; or the fault with no register
written. The range check is the spec's decisions D6 to D8. -/
def Obligations.BlockLoadResult : Prop :=
  ∀ (x : Reg) (s : State),
    decode (0xF#4 ++ x ++ 0x65#8) = .ok (.ldVxMem x) ∧
    (s.i.toNat + x.toNat ≤ 4095 → ∃ t, exec (.ldVxMem x) s = .next t ∧
      WritesRegisters s t fun r => if r.toNat ≤ x.toNat then s.mem.read (s.addr r.toNat) else s.getV r) ∧
    (4095 < s.i.toNat + x.toNat → RangeFaults (.ldVxMem x) s)

/-! ## Display -/

/-- CLS (R190): every pixel off, draw_pending set, PC + 2, nothing else. The bit pattern is the spec's decision D1
(log entry 1). -/
def Obligations.ClearScreenResult : Prop :=
  ∀ s : State,
    decode 0x00E0 = .ok .cls ∧
    ∃ t, exec .cls s = .next t ∧ (∀ x y, x < 64 → y < 32 → t.fb.get x y = false) ∧ t.drawPending = true ∧
      t.pc = s.pc + 2 ∧ t = { s with fb := t.fb, drawPending := t.drawPending, pc := t.pc } ∧
      ∀ a : Nat, t.mem.read a = s.mem.read a

/-- DRW in closed form (R192, the spec's inference from R191; that the bytes of clipped rows are range-checked is its
decision D31, the old VF as anchor its decision D14): a pixel flips exactly when a sprite bit lands on it, VF tells
whether one landed on a lit pixel, draw_pending is set; or the fault with nothing drawn. -/
def Obligations.DrawClosedForm : Prop :=
  ∀ (x y : Reg) (n : Nibble) (s : State),
    let lands := SpriteLands (fun r => s.mem.read (s.addr r)) ((s.getV x).toNat % 64) ((s.getV y).toNat % 32) n.toNat
    decode (0xD#4 ++ x ++ y ++ n) = .ok (.drw x y n) ∧
    (n = 0 ∨ s.i.toNat + (n.toNat - 1) ≤ 4095 → ∃ t, exec (.drw x y n) s = .next t ∧
      (∀ px py, lands px py → t.fb.get px py = !s.fb.get px py) ∧
      (∀ px py, ¬lands px py → t.fb.get px py = s.fb.get px py) ∧
      ((∃ px py, lands px py ∧ s.fb.get px py = true) → t.getV 0xF = 1) ∧
      ((¬∃ px py, lands px py ∧ s.fb.get px py = true) → t.getV 0xF = 0) ∧
      (∀ r, r ≠ 0xF → t.getV r = s.getV r) ∧ t.drawPending = true ∧ t.pc = s.pc + 2 ∧
      t = { s with v := t.v, pc := t.pc, fb := t.fb, drawPending := t.drawPending } ∧
      ∀ a : Nat, t.mem.read a = s.mem.read a) ∧
    (n ≠ 0 → 4095 < s.i.toNat + (n.toNat - 1) → RangeFaults (.drw x y n) s)

/-- Drawing the same sprite twice at the same anchor restores the framebuffer; the second draw reports VF = 1 exactly
when a set bit lands on a pixel that was dark before both. On a blank screen that is: when the sprite has an unclipped
set bit, as corner case (g) of R191 has it; on a screen with lit pixels the general form here is what the loop of R191
gives. With x or y = 0xF the first draw writes the anchor's own register: there the statement speaks of the second draw
only where the anchor is still the same, as its premises say. -/
def Obligations.DrawTwiceRestores : Prop :=
  ∀ (x y : Reg) (n : Nibble) (s : State),
    let lands := SpriteLands (fun r => s.mem.read (s.addr r)) ((s.getV x).toNat % 64) ((s.getV y).toNat % 32) n.toNat
    n = 0 ∨ s.i.toNat + (n.toNat - 1) ≤ 4095 →
    ∃ t, exec (.drw x y n) s = .next t ∧
      ((t.getV x).toNat % 64 = (s.getV x).toNat % 64 → (t.getV y).toNat % 32 = (s.getV y).toNat % 32 →
        ∃ u, exec (.drw x y n) t = .next u ∧ u.fb = s.fb ∧
          (u.getV 0xF = 1 ↔ ∃ px py, lands px py ∧ s.fb.get px py = false))

/-! ## Keys and timers -/

/-- SKP and SKNP (R210, R211): PC + 4 by the level of the key numbered V[x], else PC + 2; V[x] above 15 is the fault
KEY_RANGE, the spec's decision D12. -/
def Obligations.KeySkipResults : Prop :=
  ∀ (x : Reg) (s : State),
    decode (0xE#4 ++ x ++ 0x9E#8) = .ok (.skp x) ∧ decode (0xE#4 ++ x ++ 0xA1#8) = .ok (.sknp x) ∧
    (∀ k : Key, (s.getV x).toNat = k.toNat →
      exec (.skp x) s = .next { s with pc := if s.keyDown k = true then s.pc + 4 else s.pc + 2 } ∧
      exec (.sknp x) s = .next { s with pc := if s.keyDown k = true then s.pc + 2 else s.pc + 4 }) ∧
    (15 < (s.getV x).toNat →
      exec (.skp x) s = .next (s.faulted (.keyRange (s.getV x)) (some (encode (.skp x)))) ∧
      exec (.sknp x) s = .next (s.faulted (.keyRange (s.getV x)) (some (encode (.sknp x)))))

/-- Key-wait (R212): with no key pressed nothing changes; else V[x] is the number of some pressed key and PC + 2. Which
key is the free choice that the spec's decision D13 leaves open; the counter of choices is the model's (log entry 6). -/
def Obligations.KeyWaitResult : Prop :=
  ∀ (x : Reg) (s : State),
    decode (0xF#4 ++ x ++ 0x0A#8) = .ok (.ldVxK x) ∧
    ((∀ k, s.keyDown k = false) → exec (.ldVxK x) s = .next s) ∧
    ((∃ k, s.keyDown k = true) → ∃ t k b, s.keyDown k = true ∧ b.toNat = k.toNat ∧ exec (.ldVxK x) s = .next t ∧
      (∀ r, t.getV r = s.withV x b r) ∧ t.pc = s.pc + 2 ∧
      t = { s with v := t.v, pc := t.pc, keyDraws := s.keyDraws + 1 } ∧ ∀ a : Nat, t.mem.read a = s.mem.read a)

/-- LD Vx, DT; LD DT, Vx; LD ST, Vx (R213 to R215): the copies, PC + 2, nothing else; sound_active stays.
The bit patterns are the spec's decision D1 (log entry 1). -/
def Obligations.TimerMoveResults : Prop :=
  ∀ (x : Reg) (s : State),
    decode (0xF#4 ++ x ++ 0x07#8) = .ok (.ldVxDT x) ∧ decode (0xF#4 ++ x ++ 0x15#8) = .ok (.ldDTVx x) ∧
    decode (0xF#4 ++ x ++ 0x18#8) = .ok (.ldSTVx x) ∧
    (∃ t, exec (.ldVxDT x) s = .next t ∧ WritesRegisters s t (s.withV x s.dt)) ∧
    exec (.ldDTVx x) s = .next { s with dt := s.getV x, pc := s.pc + 2 } ∧
    exec (.ldSTVx x) s = .next { s with st := s.getV x, pc := s.pc + 2 }

/-- TICK (R238): each timer one down, never below 0; sound_active tells whether ST was nonzero before; nothing else
changes, and nothing at all while a fault is latched (the spec's decisions D9 and D32). -/
def Obligations.TickResult : Prop :=
  ∀ s : State,
    (s.running → ∃ t, deliver .tick s = .next t ∧ t.dt.toNat = s.dt.toNat - 1 ∧ t.st.toNat = s.st.toNat - 1 ∧
      (t.soundActive = true ↔ 0 < s.st.toNat) ∧
      t = { s with dt := t.dt, st := t.st, soundActive := t.soundActive }) ∧
    (¬s.running → deliver .tick s = .next s)

/-- A timer of value v lasts v ticks, and sound_active is 1 after each of the next v ticks and 0 after tick v + 1 (R240,
the spec's inference from R238). -/
def Obligations.TimersCountDown : Prop :=
  ∀ (s : State) (n : Nat), s.running →
    let t := runEvents (List.replicate (n + 1) .tick) s
    t.dt.toNat = s.dt.toNat - (n + 1) ∧ t.st.toNat = s.st.toNat - (n + 1) ∧ (t.soundActive = true ↔ n < s.st.toNat)

/-! ## Host events -/

/-- RESET places the ROM verbatim from 0x200 on (R70). -/
def Obligations.RomIsPlaced : Prop :=
  ∀ (s : State) (rom : List Byte), rom.length ≤ 3584 →
    ∃ t, deliver (.reset rom) s = .next t ∧
      ∀ (k : Nat) (h : k < rom.length), t.mem.read (0x200 + k) = rom[k]

/-- What RESET leaves, whatever the state before (R42, R270): PC, SP, the framebuffer and the font as the source says;
the zeros of the rest are the spec's decision D16, the latch its decision D9, glyphs 1 to F its decision D3. -/
def Obligations.ResetLeavesState : Prop :=
  ∀ (s : State) (rom : List Byte), rom.length ≤ 3584 →
    ∃ t, deliver (.reset rom) s = .next t ∧ t.pc = 0x200 ∧ t.sp = 0 ∧ (∀ x y, t.fb.get x y = false) ∧
      (∀ r, t.getV r = 0) ∧ t.i = 0 ∧ (∀ k, t.slot k = 0) ∧ t.dt = 0 ∧ t.st = 0 ∧ (∀ k, t.keyDown k = false) ∧
      t.drawPending = false ∧ t.soundActive = false ∧ t.fault = none ∧
      (∀ a : Nat, 0x050 ≤ a → a < 0x0A0 → t.mem.read a = fontBytes.getD (a - 0x050) 0) ∧
      (∀ a : Nat, a < 0x050 ∨ (0x0A0 ≤ a ∧ a < 0x200) ∨ 0x200 + rom.length ≤ a → t.mem.read a = 0) ∧
      fontBytes.take 5 = [0xF0, 0x90, 0x90, 0x90, 0xF0] ∧ fontBytes.length = 80

/-- A ROM of more than 3584 bytes is refused, and the history goes on as if RESET had not been raised (R271; the refusal
is the spec's decision D28). -/
def Obligations.OversizeRomRefused : Prop :=
  ∀ (s : State) (rom : List Byte) (es : List Event), 3584 < rom.length →
    deliver (.reset rom) s = .refused .romTooLong ∧ runEvents (.reset rom :: es) s = runEvents es s

/-- FB_GET and MEM_PEEK answer within their range and refuse outside it (R77, R79; the refusal is the spec's decision
D29). -/
def Obligations.ReadPortsCheckTheirRange : Prop :=
  ∀ (s : State) (x y a : Nat),
    (x < 64 ∧ y < 32 → fbGet s x y = .ok (s.fb.get x y)) ∧ (63 < x ∨ 31 < y → fbGet s x y = .error .fbGetRange) ∧
    (a ≤ 4095 → memPeek s a = .ok (s.mem.read a)) ∧ (4095 < a → memPeek s a = .error .memPeekRange)

/-- KEY_SET writes one key and DRAW_ACK one flag, on a running machine, and nothing else (R242; the event view is the
spec's decision D25). -/
def Obligations.KeySetAndDrawAckWriteOnlyTheirs : Prop :=
  ∀ (s : State) (k : Key) (b : Bool), s.running →
    (∃ t, deliver (.keySet k b) s = .next t ∧ (∀ j, t.keyDown j = if j = k then b else s.keyDown j) ∧
      t = { s with keys := t.keys }) ∧
    deliver .drawAck s = .next { s with drawPending := false }

/-- RESET is the only event that clears the fault latch (R272; the latch is the spec's decision D9). -/
def Obligations.OnlyResetClearsTheLatch : Prop :=
  ∀ (e : Event) (s t : State), ¬s.running → deliver e s = .next t → t.running → ∃ rom, e = .reset rom

/-! ## Who may write what -/

/-- VF is written only by the six flag-writing instructions, and by an instruction whose destination it is (R23). -/
def Obligations.FlagRegisterWriters : Prop :=
  ∀ (i : Instr) (s t : State), exec i s = .next t → t.getV 0xF ≠ s.getV 0xF →
    (∃ x y, i = .addReg x y ∨ i = .subReg x y ∨ i = .subnReg x y ∨ i = .shr x y ∨ i = .shl x y) ∨
    (∃ x y n, i = .drw x y n) ∨
    (∃ kk, i = .ldImm 0xF kk ∨ i = .addImm 0xF kk ∨ i = .rnd 0xF kk) ∨
    (∃ y, i = .ldReg 0xF y ∨ i = .orReg 0xF y ∨ i = .andReg 0xF y ∨ i = .xorReg 0xF y) ∨
    i = .ldVxDT 0xF ∨ i = .ldVxK 0xF ∨ i = .ldVxMem 0xF

/-- The stack and SP change only by CALL and RET (R28, R29). -/
def Obligations.OnlyCallAndReturnMoveTheStack : Prop :=
  ∀ (i : Instr) (s t : State), exec i s = .next t → t.sp ≠ s.sp ∨ t.stack ≠ s.stack → i = .ret ∨ ∃ nnn, i = .call nnn

/-- I changes only by LD I, ADD I and LD F; LD I leaves at most 0xFFF, LD F 0x050 to 0x54B (R27). -/
def Obligations.OnlyIndexInstructionsWriteI : Prop :=
  ∀ (i : Instr) (s t : State), exec i s = .next t →
    (t.i ≠ s.i → (∃ nnn, i = .ldI nnn) ∨ ∃ x, i = .addI x ∨ i = .ldF x) ∧
    (∀ nnn, i = .ldI nnn → t.i.toNat ≤ 0xFFF) ∧ (∀ x, i = .ldF x → 0x050 ≤ t.i.toNat ∧ t.i.toNat ≤ 0x54B)

/-- The framebuffer and draw_pending change only by CLS and DRW, and no instruction clears draw_pending (R34, R37). -/
def Obligations.OnlyDisplayInstructionsWriteTheScreen : Prop :=
  ∀ (i : Instr) (s t : State), exec i s = .next t →
    (t.fb ≠ s.fb ∨ t.drawPending ≠ s.drawPending → i = .cls ∨ ∃ x y n, i = .drw x y n) ∧
    (s.drawPending = true → t.drawPending = true)

/-- Memory changes only by LD B and LD [I], Vx (R71). -/
def Obligations.OnlyStoresWriteMemory : Prop :=
  ∀ (i : Instr) (s t : State), exec i s = .next t → t.mem ≠ s.mem → ∃ x, i = .ldB x ∨ i = .ldMemVx x

/-- No instruction writes the keys or sound_active; DT changes only by LD DT, Vx and ST only by LD ST, Vx (R30, R31, R32,
R35). -/
def Obligations.TimerKeyAndSoundWriters : Prop :=
  ∀ (i : Instr) (s t : State), exec i s = .next t →
    t.keys = s.keys ∧ t.soundActive = s.soundActive ∧ (t.dt ≠ s.dt → ∃ x, i = .ldDTVx x) ∧
    (t.st ≠ s.st → ∃ x, i = .ldSTVx x)

/-- No instruction reads ST, draw_pending or sound_active (R31, R34, R35): runs that differ only there go on differing
only there. -/
def Obligations.OutputsAreNeverRead : Prop :=
  ∀ (i : Instr) (s : State) (st : Byte) (d a : Bool),
    ∃ t u, exec i s = .next t ∧ exec i { s with st := st, drawPending := d, soundActive := a } = .next u ∧
      u = { t with st := u.st, drawPending := u.drawPending, soundActive := u.soundActive }

/-- The recommended end of a run is final: a self-jump changes no state (R251, the spec's decision D27; `END_OF_RUN` is
open, log entry 9). -/
def Obligations.SelfJumpIsFinal : Prop := ∀ s : State, s.ended → step s = .next s

/-- The order of a clock cycle (R243, the spec's decision D25): with step_en and tick_en the TICK comes first, and a
draw_ack in the cycle of a CLS leaves draw_pending set. The cycle starts from `released`, the core after the RESET of an
rst that was held until then; that it comes first is the model's choice (log entry 14). -/
def Obligations.ClockOrder : Prop :=
  ∀ (s : PortState) (p : PortIn), p.rst = false → p.stepEn = true → s.released.running →
    (p.tickEn = true → p.drawAck = false →
      step { s.released with keys := p.keyIn }.ticked = .next (clock p s).core) ∧
    (fetch s.released = .ok 0x00E0 → (clock p s).core.drawPending = true)

/-- The ROM-load channel (R243, the spec's decision D25): an image loaded byte by byte while rst is held leaves the core
as it is, whatever the other inputs are, and at the release is one RESET with that image, refused if it is longer than
3584 bytes (its decision D28). When the RESET happens and what rom_addr counts from are the model's choices (log
entry 14). -/
def Obligations.RomChannelIsReset : Prop :=
  ∀ (s : State) (p : PortIn) (rom : List Byte), rom ≠ [] → rom.length ≤ 4096 →
    let t := clocks (romCyclesFrom p 0 rom) ⟨s, none⟩
    t.core = s ∧ (rom.length ≤ 3584 → deliver (.reset rom) s = .next t.released) ∧
    (3584 < rom.length → t.released = s)
end

