-- ==== Sys2Proof/Laws/Decode.lean ====
section
/-! SUPPORT. The fields of a word that is written as its parts side by side (R91, R92), and the parts of any word. -/

namespace Sys2Proof

/-- NNN words. -/
theorem fieldsOf_nnn (a : Nibble) (nnn : Addr) :
    (fieldsOf (a ++ nnn)).n1 = a ∧ (fieldsOf (a ++ nnn)).nnn = nnn :=
  ⟨BitVec.extractLsb'_append_eq_left, BitVec.extractLsb'_append_eq_right⟩

/-- XKK and X words. -/
theorem fieldsOf_xkk (a x : Nibble) (kk : Byte) :
    (fieldsOf (a ++ x ++ kk)).n1 = a ∧ (fieldsOf (a ++ x ++ kk)).x = x ∧ (fieldsOf (a ++ x ++ kk)).kk = kk := by
  refine ⟨?_, ?_, BitVec.extractLsb'_append_eq_right⟩
  · exact (BitVec.extractLsb'_append_eq_of_le (w := 8) (by decide)).trans BitVec.extractLsb'_append_eq_left
  · exact (BitVec.extractLsb'_append_eq_of_le (w := 8) (by decide)).trans BitVec.extractLsb'_append_eq_right

/-- XY and XYN words. -/
theorem fieldsOf_xyn (a x y n : Nibble) :
    (fieldsOf (a ++ x ++ y ++ n)).n1 = a ∧ (fieldsOf (a ++ x ++ y ++ n)).x = x ∧
      (fieldsOf (a ++ x ++ y ++ n)).y = y ∧ (fieldsOf (a ++ x ++ y ++ n)).n = n := by
  refine ⟨?_, ?_, ?_, BitVec.extractLsb'_append_eq_right⟩
  · exact (BitVec.extractLsb'_append_eq_of_le (w := 4) (by decide)).trans
      ((BitVec.extractLsb'_append_eq_of_le (w := 4) (by decide)).trans BitVec.extractLsb'_append_eq_left)
  · exact (BitVec.extractLsb'_append_eq_of_le (w := 4) (by decide)).trans
      ((BitVec.extractLsb'_append_eq_of_le (w := 4) (by decide)).trans BitVec.extractLsb'_append_eq_right)
  · exact (BitVec.extractLsb'_append_eq_of_le (w := 4) (by decide)).trans BitVec.extractLsb'_append_eq_right

/-- Any word is its NNN fields side by side. -/
theorem word_eq_nnn (w : Word) : (fieldsOf w).n1 ++ (fieldsOf w).nnn = w :=
  BitVec.extractLsb'_append_extractLsb' (w := 4) (len := 12)

/-- Any word is its XKK fields side by side. -/
theorem word_eq_xkk (w : Word) : (fieldsOf w).n1 ++ (fieldsOf w).x ++ (fieldsOf w).kk = w := by
  have h : (fieldsOf w).n1 ++ (fieldsOf w).x = w.extractLsb' 8 8 :=
    BitVec.extractLsb'_append_extractLsb'_eq_extractLsb' (len₂ := 4) (len₁ := 4) rfl
  rw [h]
  exact BitVec.extractLsb'_append_extractLsb' (w := 8) (len := 8)

/-- Any word is its four nibbles side by side. -/
theorem word_eq_xyn (w : Word) : (fieldsOf w).n1 ++ (fieldsOf w).x ++ (fieldsOf w).y ++ (fieldsOf w).n = w := by
  have h : (fieldsOf w).n1 ++ (fieldsOf w).x = w.extractLsb' 8 8 :=
    BitVec.extractLsb'_append_extractLsb'_eq_extractLsb' (len₂ := 4) (len₁ := 4) rfl
  have h' : w.extractLsb' 8 8 ++ (fieldsOf w).y = w.extractLsb' 4 12 :=
    BitVec.extractLsb'_append_extractLsb'_eq_extractLsb' (len₂ := 8) (len₁ := 4) rfl
  rw [h, h']
  exact BitVec.extractLsb'_append_extractLsb' (w := 12) (len := 4)

/-- Every word's fields are well-formed (R91). -/
theorem fieldsOf_wellFormed (w : Word) : (fieldsOf w).WellFormed = true := by
  simp only [Fields.WellFormed, Fields.kkAgrees, Fields.nnnAgrees, fieldsOf, BitVec.extractLsb'_toNat,
    Bool.and_eq_true, beq_iff_eq, Nat.shiftRight_eq_div_pow]
  omega

/-- The bytes of a word, put together again, are the word (R63, R64). -/
@[simp] theorem wordOfBytes_bytesOfWord (w : Word) : wordOfBytes (bytesOfWord w).1 (bytesOfWord w).2 = w :=
  BitVec.extractLsb'_append_extractLsb' (w := 8) (len := 8)

/-- The decoder on the two bytes of a word is the decoder on the word. -/
theorem decodeBytes_pair (b0 b1 : Byte) (rest : List Byte) (i : Instr) :
    decodeBytes (b0 :: b1 :: rest) = .ok (i, rest) ↔ decode (wordOfBytes b0 b1) = .ok i := by
  simp only [decodeBytes]
  cases decode (wordOfBytes b0 b1) <;> simp [Except.map]

end Sys2Proof
end

