-- ==== Sys2Proof/Laws/Memory.lean ====
section
/-! SUPPORT. Reads after writes, and that every memory operation keeps the canonical form. -/

namespace Sys2Proof.Machine

theorem Memory.read_cons (a : Nat) (b : Byte) (m : Memory) (c : Nat) (h : Memory.read m a = resetByte a) :
    Memory.read (Memory.cons a b m) c = if c = a then b else Memory.read m c := by
  unfold Memory.cons
  by_cases hb : b = resetByte a
  · by_cases hc : c = a
    · subst hc; simp [hb, h]
    · simp [hb, hc]
  · simp [hb, Memory.read]

/-- Below its first cell a canonical memory lists nothing. -/
theorem Memory.read_below {lo : Nat} {m : Memory} (h : Memory.wfAbove lo m = true) {a : Nat} (ha : a < lo) :
    Memory.read m a = resetByte a := by
  induction m generalizing lo with
  | nil => rfl
  | cons cell rest ih =>
    obtain ⟨k, b⟩ := cell
    simp only [Memory.wfAbove, Bool.and_eq_true, decide_eq_true_eq] at h
    have hk : a ≠ k := by omega
    simp only [Memory.read, hk, if_false]
    exact ih h.2 (by omega)

/-- Read after write (R61, R62, R73): on a canonical memory. -/
theorem Memory.read_write_above {lo : Nat} {m : Memory} (h : Memory.wfAbove lo m = true) (a : Nat) (b : Byte) (c : Nat) :
    (m.write a b).read c = if c = a then b else m.read c := by
  induction m generalizing lo with
  | nil => exact Memory.read_cons a b [] c rfl
  | cons cell rest ih =>
    obtain ⟨k, d⟩ := cell
    simp only [Memory.wfAbove, Bool.and_eq_true, decide_eq_true_eq] at h
    simp only [Memory.write]
    split
    · rename_i hlt
      refine Memory.read_cons a b _ c ?_
      have : a ≠ k := by omega
      simp only [Memory.read, this, if_false]
      exact Memory.read_below h.2 (by omega)
    · split
      · rename_i hak
        rw [Memory.read_cons a b rest c (Memory.read_below h.2 (by omega))]
        by_cases hc : c = a
        · simp [hc]
        · have : c ≠ k := by omega
          simp [Memory.read, hc, this]
      · rename_i hlt hne
        simp only [Memory.read, ih h.2]
        by_cases hck : c = k
        · have : c ≠ a := by omega
          simp [hck, Ne.symm hne]
        · simp [hck]

theorem Memory.read_write {m : Memory} (h : m.wf = true) (a : Nat) (b : Byte) (c : Nat) :
    (m.write a b).read c = if c = a then b else m.read c :=
  Memory.read_write_above h a b c

theorem Memory.wfAbove_mono {lo lo' : Nat} {m : Memory} (h : Memory.wfAbove lo m = true) (hl : lo' ≤ lo) :
    Memory.wfAbove lo' m = true := by
  cases m with
  | nil => rfl
  | cons cell rest =>
    obtain ⟨k, b⟩ := cell
    simp only [Memory.wfAbove, Bool.and_eq_true, decide_eq_true_eq] at h ⊢
    exact ⟨⟨⟨by omega, h.1.1.2⟩, h.1.2⟩, h.2⟩

theorem Memory.wfAbove_cons {lo a : Nat} {m : Memory} (b : Byte) (h : Memory.wfAbove (a + 1) m = true) (hl : lo ≤ a)
    (ha : a < Config.memSize) : Memory.wfAbove lo (Memory.cons a b m) = true := by
  unfold Memory.cons
  split
  · exact Memory.wfAbove_mono h (by omega)
  · rename_i hb
    simp only [Memory.wfAbove, Bool.and_eq_true, decide_eq_true_eq]
    exact ⟨⟨⟨hl, ha⟩, hb⟩, h⟩

theorem Memory.wfAbove_write {lo : Nat} {m : Memory} (h : Memory.wfAbove lo m = true) {a : Nat} (b : Byte) (hl : lo ≤ a)
    (ha : a < Config.memSize) : Memory.wfAbove lo (m.write a b) = true := by
  induction m generalizing lo with
  | nil => exact Memory.wfAbove_cons b rfl hl ha
  | cons cell rest ih =>
    obtain ⟨k, d⟩ := cell
    have h0 := h
    simp only [Memory.wfAbove, Bool.and_eq_true, decide_eq_true_eq] at h
    simp only [Memory.write]
    split
    · rename_i hlt
      refine Memory.wfAbove_cons b ?_ hl ha
      simp only [Memory.wfAbove, Bool.and_eq_true, decide_eq_true_eq]
      exact ⟨⟨⟨by omega, h.1.1.2⟩, h.1.2⟩, h.2⟩
    · split
      · rename_i hak
        exact Memory.wfAbove_cons b (hak ▸ h.2) hl ha
      · simp only [Memory.wfAbove, Bool.and_eq_true, decide_eq_true_eq]
        exact ⟨⟨⟨h.1.1.1, h.1.1.2⟩, h.1.2⟩, ih h.2 (by omega)⟩

/-- The store of a byte keeps the canonical form. -/
theorem Memory.wf_write {m : Memory} (h : m.wf = true) {a : Nat} (b : Byte) (ha : a < Config.memSize) :
    (m.write a b).wf = true :=
  Memory.wfAbove_write h b (Nat.zero_le a) ha

/-- The store of bytes keeps the canonical form. -/
theorem Memory.wf_writeBytes {m : Memory} (h : m.wf = true) {a : Nat} (l : List Byte)
    (ha : a + l.length ≤ Config.memSize) : (m.writeBytes a l).wf = true := by
  induction l generalizing m a with
  | nil => exact h
  | cons b rest ih =>
    simp only [List.length_cons] at ha
    exact ih (Memory.wf_write h b (by omega)) (by omega)

/-- The store of bytes, read back: the bytes at a .. a + length - 1, every other address as before. -/
theorem Memory.read_writeBytes {m : Memory} (h : m.wf = true) {a : Nat} (l : List Byte)
    (ha : a + l.length ≤ Config.memSize) (c : Nat) :
    (m.writeBytes a l).read c = if a ≤ c ∧ c < a + l.length then l.getD (c - a) 0 else m.read c := by
  induction l generalizing m a with
  | nil =>
    have : ¬(a ≤ c ∧ c < a + ([] : List Byte).length) := by simp
    rw [if_neg this]
    rfl
  | cons b rest ih =>
    simp only [List.length_cons] at ha ⊢
    rw [Memory.writeBytes, ih (Memory.wf_write h b (by omega)) (by omega), Memory.read_write h]
    by_cases hc : c = a
    · subst hc
      rw [if_neg (by omega), if_pos rfl, if_pos (by omega)]
      simp
    · by_cases hin : a + 1 ≤ c ∧ c < a + 1 + rest.length
      · rw [if_pos hin, if_pos (by omega), show c - a = c - (a + 1) + 1 by omega]
        simp
      · rw [if_neg hin, if_neg hc, if_neg (by omega)]

/-- The store of a word keeps the canonical form (R64). -/
theorem Memory.wf_writeWord {m : Memory} (h : m.wf = true) {a : Nat} (w : Word) (ha : a + 1 < Config.memSize) :
    (m.writeWord a w).wf = true :=
  Memory.wf_write (Memory.wf_write h _ (by omega)) _ ha

/-- A stored word, read back (R63, R64). -/
theorem Memory.readWord_writeWord {m : Memory} (h : m.wf = true) {a : Nat} (w : Word) (ha : a + 1 < Config.memSize) :
    (m.writeWord a w).readWord a = w := by
  have h1 := Memory.wf_write h (bytesOfWord w).1 (a := a) (by omega)
  simp only [Memory.readWord, Memory.writeWord, Memory.read_write h1, Memory.read_write h]
  simp

/-- The empty list is canonical. -/
theorem Memory.wf_nil : Memory.wf [] = true := rfl

end Sys2Proof.Machine
end

