-- ==== Sys2Proof/Laws/State.lean ====
section
/-! SUPPORT. What each named update of the state leaves in each field, one lemma per field per update. -/

namespace Sys2Proof.Machine

@[simp] theorem State.setV_v (s : State) (x : Reg) (b : Byte) : (s.setV x b).v = s.v.set x.toNat b x.isLt := rfl
@[simp] theorem State.setV_i (s : State) (x : Reg) (b : Byte) : (s.setV x b).i = s.i := rfl
@[simp] theorem State.setV_pc (s : State) (x : Reg) (b : Byte) : (s.setV x b).pc = s.pc := rfl
@[simp] theorem State.setV_sp (s : State) (x : Reg) (b : Byte) : (s.setV x b).sp = s.sp := rfl
@[simp] theorem State.setV_stack (s : State) (x : Reg) (b : Byte) : (s.setV x b).stack = s.stack := rfl
@[simp] theorem State.setV_dt (s : State) (x : Reg) (b : Byte) : (s.setV x b).dt = s.dt := rfl
@[simp] theorem State.setV_st (s : State) (x : Reg) (b : Byte) : (s.setV x b).st = s.st := rfl
@[simp] theorem State.setV_keys (s : State) (x : Reg) (b : Byte) : (s.setV x b).keys = s.keys := rfl
@[simp] theorem State.setV_fault (s : State) (x : Reg) (b : Byte) : (s.setV x b).fault = s.fault := rfl
@[simp] theorem State.setV_drawPending (s : State) (x : Reg) (b : Byte) : (s.setV x b).drawPending = s.drawPending := rfl
@[simp] theorem State.setV_soundActive (s : State) (x : Reg) (b : Byte) : (s.setV x b).soundActive = s.soundActive := rfl
@[simp] theorem State.setV_mem (s : State) (x : Reg) (b : Byte) : (s.setV x b).mem = s.mem := rfl
@[simp] theorem State.setV_fb (s : State) (x : Reg) (b : Byte) : (s.setV x b).fb = s.fb := rfl
@[simp] theorem State.setV_randDraws (s : State) (x : Reg) (b : Byte) : (s.setV x b).randDraws = s.randDraws := rfl
@[simp] theorem State.setV_keyDraws (s : State) (x : Reg) (b : Byte) : (s.setV x b).keyDraws = s.keyDraws := rfl

@[simp] theorem State.setI_v (s : State) (w : Word) : (s.setI w).v = s.v := rfl
@[simp] theorem State.setI_i (s : State) (w : Word) : (s.setI w).i = w := rfl
@[simp] theorem State.setI_pc (s : State) (w : Word) : (s.setI w).pc = s.pc := rfl
@[simp] theorem State.setI_sp (s : State) (w : Word) : (s.setI w).sp = s.sp := rfl
@[simp] theorem State.setI_stack (s : State) (w : Word) : (s.setI w).stack = s.stack := rfl
@[simp] theorem State.setI_dt (s : State) (w : Word) : (s.setI w).dt = s.dt := rfl
@[simp] theorem State.setI_st (s : State) (w : Word) : (s.setI w).st = s.st := rfl
@[simp] theorem State.setI_keys (s : State) (w : Word) : (s.setI w).keys = s.keys := rfl
@[simp] theorem State.setI_fault (s : State) (w : Word) : (s.setI w).fault = s.fault := rfl
@[simp] theorem State.setI_drawPending (s : State) (w : Word) : (s.setI w).drawPending = s.drawPending := rfl
@[simp] theorem State.setI_soundActive (s : State) (w : Word) : (s.setI w).soundActive = s.soundActive := rfl
@[simp] theorem State.setI_mem (s : State) (w : Word) : (s.setI w).mem = s.mem := rfl
@[simp] theorem State.setI_fb (s : State) (w : Word) : (s.setI w).fb = s.fb := rfl
@[simp] theorem State.setI_randDraws (s : State) (w : Word) : (s.setI w).randDraws = s.randDraws := rfl
@[simp] theorem State.setI_keyDraws (s : State) (w : Word) : (s.setI w).keyDraws = s.keyDraws := rfl

@[simp] theorem State.goto_v (s : State) (w : Word) : (s.goto w).v = s.v := rfl
@[simp] theorem State.goto_i (s : State) (w : Word) : (s.goto w).i = s.i := rfl
@[simp] theorem State.goto_pc (s : State) (w : Word) : (s.goto w).pc = w := rfl
@[simp] theorem State.goto_sp (s : State) (w : Word) : (s.goto w).sp = s.sp := rfl
@[simp] theorem State.goto_stack (s : State) (w : Word) : (s.goto w).stack = s.stack := rfl
@[simp] theorem State.goto_dt (s : State) (w : Word) : (s.goto w).dt = s.dt := rfl
@[simp] theorem State.goto_st (s : State) (w : Word) : (s.goto w).st = s.st := rfl
@[simp] theorem State.goto_keys (s : State) (w : Word) : (s.goto w).keys = s.keys := rfl
@[simp] theorem State.goto_fault (s : State) (w : Word) : (s.goto w).fault = s.fault := rfl
@[simp] theorem State.goto_drawPending (s : State) (w : Word) : (s.goto w).drawPending = s.drawPending := rfl
@[simp] theorem State.goto_soundActive (s : State) (w : Word) : (s.goto w).soundActive = s.soundActive := rfl
@[simp] theorem State.goto_mem (s : State) (w : Word) : (s.goto w).mem = s.mem := rfl
@[simp] theorem State.goto_fb (s : State) (w : Word) : (s.goto w).fb = s.fb := rfl
@[simp] theorem State.goto_randDraws (s : State) (w : Word) : (s.goto w).randDraws = s.randDraws := rfl
@[simp] theorem State.goto_keyDraws (s : State) (w : Word) : (s.goto w).keyDraws = s.keyDraws := rfl

@[simp] theorem State.advance_v (s : State) : (s.advance).v = s.v := rfl
@[simp] theorem State.advance_i (s : State) : (s.advance).i = s.i := rfl
@[simp] theorem State.advance_pc (s : State) : (s.advance).pc = s.pc + 2 := rfl
@[simp] theorem State.advance_sp (s : State) : (s.advance).sp = s.sp := rfl
@[simp] theorem State.advance_stack (s : State) : (s.advance).stack = s.stack := rfl
@[simp] theorem State.advance_dt (s : State) : (s.advance).dt = s.dt := rfl
@[simp] theorem State.advance_st (s : State) : (s.advance).st = s.st := rfl
@[simp] theorem State.advance_keys (s : State) : (s.advance).keys = s.keys := rfl
@[simp] theorem State.advance_fault (s : State) : (s.advance).fault = s.fault := rfl
@[simp] theorem State.advance_drawPending (s : State) : (s.advance).drawPending = s.drawPending := rfl
@[simp] theorem State.advance_soundActive (s : State) : (s.advance).soundActive = s.soundActive := rfl
@[simp] theorem State.advance_mem (s : State) : (s.advance).mem = s.mem := rfl
@[simp] theorem State.advance_fb (s : State) : (s.advance).fb = s.fb := rfl
@[simp] theorem State.advance_randDraws (s : State) : (s.advance).randDraws = s.randDraws := rfl
@[simp] theorem State.advance_keyDraws (s : State) : (s.advance).keyDraws = s.keyDraws := rfl

@[simp] theorem State.skipIf_v (s : State) (c : Bool) : (s.skipIf c).v = s.v := rfl
@[simp] theorem State.skipIf_i (s : State) (c : Bool) : (s.skipIf c).i = s.i := rfl
@[simp] theorem State.skipIf_pc (s : State) (c : Bool) : (s.skipIf c).pc = if c then s.nextPc + 2 else s.nextPc := rfl
@[simp] theorem State.skipIf_sp (s : State) (c : Bool) : (s.skipIf c).sp = s.sp := rfl
@[simp] theorem State.skipIf_stack (s : State) (c : Bool) : (s.skipIf c).stack = s.stack := rfl
@[simp] theorem State.skipIf_dt (s : State) (c : Bool) : (s.skipIf c).dt = s.dt := rfl
@[simp] theorem State.skipIf_st (s : State) (c : Bool) : (s.skipIf c).st = s.st := rfl
@[simp] theorem State.skipIf_keys (s : State) (c : Bool) : (s.skipIf c).keys = s.keys := rfl
@[simp] theorem State.skipIf_fault (s : State) (c : Bool) : (s.skipIf c).fault = s.fault := rfl
@[simp] theorem State.skipIf_drawPending (s : State) (c : Bool) : (s.skipIf c).drawPending = s.drawPending := rfl
@[simp] theorem State.skipIf_soundActive (s : State) (c : Bool) : (s.skipIf c).soundActive = s.soundActive := rfl
@[simp] theorem State.skipIf_mem (s : State) (c : Bool) : (s.skipIf c).mem = s.mem := rfl
@[simp] theorem State.skipIf_fb (s : State) (c : Bool) : (s.skipIf c).fb = s.fb := rfl
@[simp] theorem State.skipIf_randDraws (s : State) (c : Bool) : (s.skipIf c).randDraws = s.randDraws := rfl
@[simp] theorem State.skipIf_keyDraws (s : State) (c : Bool) : (s.skipIf c).keyDraws = s.keyDraws := rfl

@[simp] theorem State.push_v (s : State) (w : Word) : (s.push w).v = s.v := rfl
@[simp] theorem State.push_i (s : State) (w : Word) : (s.push w).i = s.i := rfl
@[simp] theorem State.push_pc (s : State) (w : Word) : (s.push w).pc = s.pc := rfl
@[simp] theorem State.push_sp (s : State) (w : Word) : (s.push w).sp = s.sp + 1 := rfl
@[simp] theorem State.push_stack (s : State) (w : Word) : (s.push w).stack = s.stack.set (s.sp + 1).toNat w (s.sp + 1).isLt := rfl
@[simp] theorem State.push_dt (s : State) (w : Word) : (s.push w).dt = s.dt := rfl
@[simp] theorem State.push_st (s : State) (w : Word) : (s.push w).st = s.st := rfl
@[simp] theorem State.push_keys (s : State) (w : Word) : (s.push w).keys = s.keys := rfl
@[simp] theorem State.push_fault (s : State) (w : Word) : (s.push w).fault = s.fault := rfl
@[simp] theorem State.push_drawPending (s : State) (w : Word) : (s.push w).drawPending = s.drawPending := rfl
@[simp] theorem State.push_soundActive (s : State) (w : Word) : (s.push w).soundActive = s.soundActive := rfl
@[simp] theorem State.push_mem (s : State) (w : Word) : (s.push w).mem = s.mem := rfl
@[simp] theorem State.push_fb (s : State) (w : Word) : (s.push w).fb = s.fb := rfl
@[simp] theorem State.push_randDraws (s : State) (w : Word) : (s.push w).randDraws = s.randDraws := rfl
@[simp] theorem State.push_keyDraws (s : State) (w : Word) : (s.push w).keyDraws = s.keyDraws := rfl

@[simp] theorem State.pop_v (s : State) : (s.pop).v = s.v := rfl
@[simp] theorem State.pop_i (s : State) : (s.pop).i = s.i := rfl
@[simp] theorem State.pop_pc (s : State) : (s.pop).pc = s.pc := rfl
@[simp] theorem State.pop_sp (s : State) : (s.pop).sp = s.sp - 1 := rfl
@[simp] theorem State.pop_stack (s : State) : (s.pop).stack = s.stack := rfl
@[simp] theorem State.pop_dt (s : State) : (s.pop).dt = s.dt := rfl
@[simp] theorem State.pop_st (s : State) : (s.pop).st = s.st := rfl
@[simp] theorem State.pop_keys (s : State) : (s.pop).keys = s.keys := rfl
@[simp] theorem State.pop_fault (s : State) : (s.pop).fault = s.fault := rfl
@[simp] theorem State.pop_drawPending (s : State) : (s.pop).drawPending = s.drawPending := rfl
@[simp] theorem State.pop_soundActive (s : State) : (s.pop).soundActive = s.soundActive := rfl
@[simp] theorem State.pop_mem (s : State) : (s.pop).mem = s.mem := rfl
@[simp] theorem State.pop_fb (s : State) : (s.pop).fb = s.fb := rfl
@[simp] theorem State.pop_randDraws (s : State) : (s.pop).randDraws = s.randDraws := rfl
@[simp] theorem State.pop_keyDraws (s : State) : (s.pop).keyDraws = s.keyDraws := rfl

@[simp] theorem State.setDT_v (s : State) (b : Byte) : (s.setDT b).v = s.v := rfl
@[simp] theorem State.setDT_i (s : State) (b : Byte) : (s.setDT b).i = s.i := rfl
@[simp] theorem State.setDT_pc (s : State) (b : Byte) : (s.setDT b).pc = s.pc := rfl
@[simp] theorem State.setDT_sp (s : State) (b : Byte) : (s.setDT b).sp = s.sp := rfl
@[simp] theorem State.setDT_stack (s : State) (b : Byte) : (s.setDT b).stack = s.stack := rfl
@[simp] theorem State.setDT_dt (s : State) (b : Byte) : (s.setDT b).dt = b := rfl
@[simp] theorem State.setDT_st (s : State) (b : Byte) : (s.setDT b).st = s.st := rfl
@[simp] theorem State.setDT_keys (s : State) (b : Byte) : (s.setDT b).keys = s.keys := rfl
@[simp] theorem State.setDT_fault (s : State) (b : Byte) : (s.setDT b).fault = s.fault := rfl
@[simp] theorem State.setDT_drawPending (s : State) (b : Byte) : (s.setDT b).drawPending = s.drawPending := rfl
@[simp] theorem State.setDT_soundActive (s : State) (b : Byte) : (s.setDT b).soundActive = s.soundActive := rfl
@[simp] theorem State.setDT_mem (s : State) (b : Byte) : (s.setDT b).mem = s.mem := rfl
@[simp] theorem State.setDT_fb (s : State) (b : Byte) : (s.setDT b).fb = s.fb := rfl
@[simp] theorem State.setDT_randDraws (s : State) (b : Byte) : (s.setDT b).randDraws = s.randDraws := rfl
@[simp] theorem State.setDT_keyDraws (s : State) (b : Byte) : (s.setDT b).keyDraws = s.keyDraws := rfl

@[simp] theorem State.setST_v (s : State) (b : Byte) : (s.setST b).v = s.v := rfl
@[simp] theorem State.setST_i (s : State) (b : Byte) : (s.setST b).i = s.i := rfl
@[simp] theorem State.setST_pc (s : State) (b : Byte) : (s.setST b).pc = s.pc := rfl
@[simp] theorem State.setST_sp (s : State) (b : Byte) : (s.setST b).sp = s.sp := rfl
@[simp] theorem State.setST_stack (s : State) (b : Byte) : (s.setST b).stack = s.stack := rfl
@[simp] theorem State.setST_dt (s : State) (b : Byte) : (s.setST b).dt = s.dt := rfl
@[simp] theorem State.setST_st (s : State) (b : Byte) : (s.setST b).st = b := rfl
@[simp] theorem State.setST_keys (s : State) (b : Byte) : (s.setST b).keys = s.keys := rfl
@[simp] theorem State.setST_fault (s : State) (b : Byte) : (s.setST b).fault = s.fault := rfl
@[simp] theorem State.setST_drawPending (s : State) (b : Byte) : (s.setST b).drawPending = s.drawPending := rfl
@[simp] theorem State.setST_soundActive (s : State) (b : Byte) : (s.setST b).soundActive = s.soundActive := rfl
@[simp] theorem State.setST_mem (s : State) (b : Byte) : (s.setST b).mem = s.mem := rfl
@[simp] theorem State.setST_fb (s : State) (b : Byte) : (s.setST b).fb = s.fb := rfl
@[simp] theorem State.setST_randDraws (s : State) (b : Byte) : (s.setST b).randDraws = s.randDraws := rfl
@[simp] theorem State.setST_keyDraws (s : State) (b : Byte) : (s.setST b).keyDraws = s.keyDraws := rfl

@[simp] theorem State.setKey_v (s : State) (k : Key) (b : Bool) : (s.setKey k b).v = s.v := rfl
@[simp] theorem State.setKey_i (s : State) (k : Key) (b : Bool) : (s.setKey k b).i = s.i := rfl
@[simp] theorem State.setKey_pc (s : State) (k : Key) (b : Bool) : (s.setKey k b).pc = s.pc := rfl
@[simp] theorem State.setKey_sp (s : State) (k : Key) (b : Bool) : (s.setKey k b).sp = s.sp := rfl
@[simp] theorem State.setKey_stack (s : State) (k : Key) (b : Bool) : (s.setKey k b).stack = s.stack := rfl
@[simp] theorem State.setKey_dt (s : State) (k : Key) (b : Bool) : (s.setKey k b).dt = s.dt := rfl
@[simp] theorem State.setKey_st (s : State) (k : Key) (b : Bool) : (s.setKey k b).st = s.st := rfl
@[simp] theorem State.setKey_keys (s : State) (k : Key) (b : Bool) : (s.setKey k b).keys = s.keys.set k.toNat b k.isLt := rfl
@[simp] theorem State.setKey_fault (s : State) (k : Key) (b : Bool) : (s.setKey k b).fault = s.fault := rfl
@[simp] theorem State.setKey_drawPending (s : State) (k : Key) (b : Bool) : (s.setKey k b).drawPending = s.drawPending := rfl
@[simp] theorem State.setKey_soundActive (s : State) (k : Key) (b : Bool) : (s.setKey k b).soundActive = s.soundActive := rfl
@[simp] theorem State.setKey_mem (s : State) (k : Key) (b : Bool) : (s.setKey k b).mem = s.mem := rfl
@[simp] theorem State.setKey_fb (s : State) (k : Key) (b : Bool) : (s.setKey k b).fb = s.fb := rfl
@[simp] theorem State.setKey_randDraws (s : State) (k : Key) (b : Bool) : (s.setKey k b).randDraws = s.randDraws := rfl
@[simp] theorem State.setKey_keyDraws (s : State) (k : Key) (b : Bool) : (s.setKey k b).keyDraws = s.keyDraws := rfl

@[simp] theorem State.setMem_v (s : State) (m : Memory) : (s.setMem m).v = s.v := rfl
@[simp] theorem State.setMem_i (s : State) (m : Memory) : (s.setMem m).i = s.i := rfl
@[simp] theorem State.setMem_pc (s : State) (m : Memory) : (s.setMem m).pc = s.pc := rfl
@[simp] theorem State.setMem_sp (s : State) (m : Memory) : (s.setMem m).sp = s.sp := rfl
@[simp] theorem State.setMem_stack (s : State) (m : Memory) : (s.setMem m).stack = s.stack := rfl
@[simp] theorem State.setMem_dt (s : State) (m : Memory) : (s.setMem m).dt = s.dt := rfl
@[simp] theorem State.setMem_st (s : State) (m : Memory) : (s.setMem m).st = s.st := rfl
@[simp] theorem State.setMem_keys (s : State) (m : Memory) : (s.setMem m).keys = s.keys := rfl
@[simp] theorem State.setMem_fault (s : State) (m : Memory) : (s.setMem m).fault = s.fault := rfl
@[simp] theorem State.setMem_drawPending (s : State) (m : Memory) : (s.setMem m).drawPending = s.drawPending := rfl
@[simp] theorem State.setMem_soundActive (s : State) (m : Memory) : (s.setMem m).soundActive = s.soundActive := rfl
@[simp] theorem State.setMem_mem (s : State) (m : Memory) : (s.setMem m).mem = m := rfl
@[simp] theorem State.setMem_fb (s : State) (m : Memory) : (s.setMem m).fb = s.fb := rfl
@[simp] theorem State.setMem_randDraws (s : State) (m : Memory) : (s.setMem m).randDraws = s.randDraws := rfl
@[simp] theorem State.setMem_keyDraws (s : State) (m : Memory) : (s.setMem m).keyDraws = s.keyDraws := rfl

@[simp] theorem State.showScreen_v (s : State) (f : Screen) : (s.showScreen f).v = s.v := rfl
@[simp] theorem State.showScreen_i (s : State) (f : Screen) : (s.showScreen f).i = s.i := rfl
@[simp] theorem State.showScreen_pc (s : State) (f : Screen) : (s.showScreen f).pc = s.pc := rfl
@[simp] theorem State.showScreen_sp (s : State) (f : Screen) : (s.showScreen f).sp = s.sp := rfl
@[simp] theorem State.showScreen_stack (s : State) (f : Screen) : (s.showScreen f).stack = s.stack := rfl
@[simp] theorem State.showScreen_dt (s : State) (f : Screen) : (s.showScreen f).dt = s.dt := rfl
@[simp] theorem State.showScreen_st (s : State) (f : Screen) : (s.showScreen f).st = s.st := rfl
@[simp] theorem State.showScreen_keys (s : State) (f : Screen) : (s.showScreen f).keys = s.keys := rfl
@[simp] theorem State.showScreen_fault (s : State) (f : Screen) : (s.showScreen f).fault = s.fault := rfl
@[simp] theorem State.showScreen_drawPending (s : State) (f : Screen) : (s.showScreen f).drawPending = true := rfl
@[simp] theorem State.showScreen_soundActive (s : State) (f : Screen) : (s.showScreen f).soundActive = s.soundActive := rfl
@[simp] theorem State.showScreen_mem (s : State) (f : Screen) : (s.showScreen f).mem = s.mem := rfl
@[simp] theorem State.showScreen_fb (s : State) (f : Screen) : (s.showScreen f).fb = f := rfl
@[simp] theorem State.showScreen_randDraws (s : State) (f : Screen) : (s.showScreen f).randDraws = s.randDraws := rfl
@[simp] theorem State.showScreen_keyDraws (s : State) (f : Screen) : (s.showScreen f).keyDraws = s.keyDraws := rfl

@[simp] theorem State.countRand_v (s : State) : (s.countRand).v = s.v := rfl
@[simp] theorem State.countRand_i (s : State) : (s.countRand).i = s.i := rfl
@[simp] theorem State.countRand_pc (s : State) : (s.countRand).pc = s.pc := rfl
@[simp] theorem State.countRand_sp (s : State) : (s.countRand).sp = s.sp := rfl
@[simp] theorem State.countRand_stack (s : State) : (s.countRand).stack = s.stack := rfl
@[simp] theorem State.countRand_dt (s : State) : (s.countRand).dt = s.dt := rfl
@[simp] theorem State.countRand_st (s : State) : (s.countRand).st = s.st := rfl
@[simp] theorem State.countRand_keys (s : State) : (s.countRand).keys = s.keys := rfl
@[simp] theorem State.countRand_fault (s : State) : (s.countRand).fault = s.fault := rfl
@[simp] theorem State.countRand_drawPending (s : State) : (s.countRand).drawPending = s.drawPending := rfl
@[simp] theorem State.countRand_soundActive (s : State) : (s.countRand).soundActive = s.soundActive := rfl
@[simp] theorem State.countRand_mem (s : State) : (s.countRand).mem = s.mem := rfl
@[simp] theorem State.countRand_fb (s : State) : (s.countRand).fb = s.fb := rfl
@[simp] theorem State.countRand_randDraws (s : State) : (s.countRand).randDraws = s.randDraws + 1 := rfl
@[simp] theorem State.countRand_keyDraws (s : State) : (s.countRand).keyDraws = s.keyDraws := rfl

@[simp] theorem State.countKeyWait_v (s : State) : (s.countKeyWait).v = s.v := rfl
@[simp] theorem State.countKeyWait_i (s : State) : (s.countKeyWait).i = s.i := rfl
@[simp] theorem State.countKeyWait_pc (s : State) : (s.countKeyWait).pc = s.pc := rfl
@[simp] theorem State.countKeyWait_sp (s : State) : (s.countKeyWait).sp = s.sp := rfl
@[simp] theorem State.countKeyWait_stack (s : State) : (s.countKeyWait).stack = s.stack := rfl
@[simp] theorem State.countKeyWait_dt (s : State) : (s.countKeyWait).dt = s.dt := rfl
@[simp] theorem State.countKeyWait_st (s : State) : (s.countKeyWait).st = s.st := rfl
@[simp] theorem State.countKeyWait_keys (s : State) : (s.countKeyWait).keys = s.keys := rfl
@[simp] theorem State.countKeyWait_fault (s : State) : (s.countKeyWait).fault = s.fault := rfl
@[simp] theorem State.countKeyWait_drawPending (s : State) : (s.countKeyWait).drawPending = s.drawPending := rfl
@[simp] theorem State.countKeyWait_soundActive (s : State) : (s.countKeyWait).soundActive = s.soundActive := rfl
@[simp] theorem State.countKeyWait_mem (s : State) : (s.countKeyWait).mem = s.mem := rfl
@[simp] theorem State.countKeyWait_fb (s : State) : (s.countKeyWait).fb = s.fb := rfl
@[simp] theorem State.countKeyWait_randDraws (s : State) : (s.countKeyWait).randDraws = s.randDraws := rfl
@[simp] theorem State.countKeyWait_keyDraws (s : State) : (s.countKeyWait).keyDraws = s.keyDraws + 1 := rfl

@[simp] theorem State.setI_getV (s : State) (w : Word) (r : Reg) : (s.setI w).getV r = s.getV r := rfl
@[simp] theorem State.goto_getV (s : State) (w : Word) (r : Reg) : (s.goto w).getV r = s.getV r := rfl
@[simp] theorem State.advance_getV (s : State) (r : Reg) : (s.advance).getV r = s.getV r := rfl
@[simp] theorem State.skipIf_getV (s : State) (c : Bool) (r : Reg) : (s.skipIf c).getV r = s.getV r := rfl
@[simp] theorem State.push_getV (s : State) (w : Word) (r : Reg) : (s.push w).getV r = s.getV r := rfl
@[simp] theorem State.pop_getV (s : State) (r : Reg) : (s.pop).getV r = s.getV r := rfl
@[simp] theorem State.setDT_getV (s : State) (b : Byte) (r : Reg) : (s.setDT b).getV r = s.getV r := rfl
@[simp] theorem State.setST_getV (s : State) (b : Byte) (r : Reg) : (s.setST b).getV r = s.getV r := rfl
@[simp] theorem State.setKey_getV (s : State) (k : Key) (b : Bool) (r : Reg) : (s.setKey k b).getV r = s.getV r := rfl
@[simp] theorem State.setMem_getV (s : State) (m : Memory) (r : Reg) : (s.setMem m).getV r = s.getV r := rfl
@[simp] theorem State.showScreen_getV (s : State) (f : Screen) (r : Reg) : (s.showScreen f).getV r = s.getV r := rfl
@[simp] theorem State.countRand_getV (s : State) (r : Reg) : (s.countRand).getV r = s.getV r := rfl
@[simp] theorem State.countKeyWait_getV (s : State) (r : Reg) : (s.countKeyWait).getV r = s.getV r := rfl

@[simp] theorem State.setV_addr (s : State) (x : Reg) (b : Byte) (j : Nat) : (s.setV x b).addr j = s.addr j := rfl
@[simp] theorem State.goto_addr (s : State) (w : Word) (j : Nat) : (s.goto w).addr j = s.addr j := rfl
@[simp] theorem State.advance_addr (s : State) (j : Nat) : (s.advance).addr j = s.addr j := rfl
@[simp] theorem State.skipIf_addr (s : State) (c : Bool) (j : Nat) : (s.skipIf c).addr j = s.addr j := rfl
@[simp] theorem State.push_addr (s : State) (w : Word) (j : Nat) : (s.push w).addr j = s.addr j := rfl
@[simp] theorem State.pop_addr (s : State) (j : Nat) : (s.pop).addr j = s.addr j := rfl
@[simp] theorem State.setDT_addr (s : State) (b : Byte) (j : Nat) : (s.setDT b).addr j = s.addr j := rfl
@[simp] theorem State.setST_addr (s : State) (b : Byte) (j : Nat) : (s.setST b).addr j = s.addr j := rfl
@[simp] theorem State.setKey_addr (s : State) (k : Key) (b : Bool) (j : Nat) : (s.setKey k b).addr j = s.addr j := rfl
@[simp] theorem State.setMem_addr (s : State) (m : Memory) (j : Nat) : (s.setMem m).addr j = s.addr j := rfl
@[simp] theorem State.showScreen_addr (s : State) (f : Screen) (j : Nat) : (s.showScreen f).addr j = s.addr j := rfl
@[simp] theorem State.countRand_addr (s : State) (j : Nat) : (s.countRand).addr j = s.addr j := rfl
@[simp] theorem State.countKeyWait_addr (s : State) (j : Nat) : (s.countKeyWait).addr j = s.addr j := rfl

@[simp] theorem State.setV_keyDown (s : State) (x : Reg) (b : Byte) (j : Key) : (s.setV x b).keyDown j = s.keyDown j := rfl
@[simp] theorem State.setI_keyDown (s : State) (w : Word) (j : Key) : (s.setI w).keyDown j = s.keyDown j := rfl
@[simp] theorem State.goto_keyDown (s : State) (w : Word) (j : Key) : (s.goto w).keyDown j = s.keyDown j := rfl
@[simp] theorem State.advance_keyDown (s : State) (j : Key) : (s.advance).keyDown j = s.keyDown j := rfl
@[simp] theorem State.skipIf_keyDown (s : State) (c : Bool) (j : Key) : (s.skipIf c).keyDown j = s.keyDown j := rfl
@[simp] theorem State.push_keyDown (s : State) (w : Word) (j : Key) : (s.push w).keyDown j = s.keyDown j := rfl
@[simp] theorem State.pop_keyDown (s : State) (j : Key) : (s.pop).keyDown j = s.keyDown j := rfl
@[simp] theorem State.setDT_keyDown (s : State) (b : Byte) (j : Key) : (s.setDT b).keyDown j = s.keyDown j := rfl
@[simp] theorem State.setST_keyDown (s : State) (b : Byte) (j : Key) : (s.setST b).keyDown j = s.keyDown j := rfl
@[simp] theorem State.setMem_keyDown (s : State) (m : Memory) (j : Key) : (s.setMem m).keyDown j = s.keyDown j := rfl
@[simp] theorem State.showScreen_keyDown (s : State) (f : Screen) (j : Key) : (s.showScreen f).keyDown j = s.keyDown j := rfl
@[simp] theorem State.countRand_keyDown (s : State) (j : Key) : (s.countRand).keyDown j = s.keyDown j := rfl
@[simp] theorem State.countKeyWait_keyDown (s : State) (j : Key) : (s.countKeyWait).keyDown j = s.keyDown j := rfl

/-- The default next_pc (R120). -/
@[simp] theorem State.nextPc_eq (s : State) : s.nextPc = s.pc + 2 := rfl

end Sys2Proof.Machine
end

