-- ==== Sys2Proof/Laws/Ops.lean ====
section
/-! SUPPORT. What each shared operation over registers, addresses, blocks and keys can do. -/

namespace Sys2Proof.Machine

/-- Read after write of a register (R8). -/
@[simp] theorem State.getV_setV (s : State) (x : Reg) (b : Byte) (r : Reg) :
    (s.setV x b).getV r = if r = x then b else s.getV r := by
  unfold State.getV State.setV
  by_cases h : r = x
  · subst h; simp
  · have : x.toNat ≠ r.toNat := fun e => h (BitVec.eq_of_toNat_eq e.symm)
    simp [h, this]

/-- A register write changes no register's neighbours in the state. -/
theorem State.setV_only (s : State) (x : Reg) (b : Byte) : s.setV x b = { s with v := (s.setV x b).v } := rfl

/-- Equal register files by their registers. -/
theorem State.v_ext {s t : State} (h : ∀ r, s.getV r = t.getV r) : s.v = t.v := by
  apply Vector.ext
  intro k hk
  have := h (BitVec.ofNat 4 k)
  unfold State.getV at this
  have e : (BitVec.ofNat 4 k).toNat = k := by simp; omega
  simpa [e] using this

/-- Two states equal in every register, with everything else equal, are equal. -/
theorem State.eq_of_getV {s t : State} (h : ∀ r, s.getV r = t.getV r) (e : t = { s with v := t.v }) : t = s := by
  rw [e, ← State.v_ext h]

/-- The flag, then the result: with x = 0xF the result stays (R140). -/
theorem State.getV_setFlagThenV (s : State) (x : Reg) (c : Bool) (b : Byte) (r : Reg) :
    (s.setFlagThenV x c b).getV r = if r = x then b else if r = vf then flagByte c else s.getV r := by
  simp [State.setFlagThenV]

theorem State.setFlagThenV_only (s : State) (x : Reg) (c : Bool) (b : Byte) :
    s.setFlagThenV x c b = { s with v := (s.setFlagThenV x c b).v } := rfl

/-- The fault entry answers one thing (R232). -/
theorem takeFault_eq (s : State) (c : Fault) (op : Option Word) :
    takeFault s c op = .next { s with fault := some ⟨c, s.pc, op⟩ } := rfl

/-- The range check passes (R176). -/
theorem State.rangeFault_none {s : State} {k : Nat} : s.rangeFault k = none ↔ s.i.toNat + k ≤ 4095 := by
  unfold State.rangeFault State.addr
  split <;> simp_all

/-- The range check fails (R176): the address is max(I, 4096). -/
theorem State.rangeFault_some {s : State} {k : Nat} {c : Fault} :
    s.rangeFault k = some c ↔
      4095 < s.i.toNat + k ∧ c = .memRange (if s.i.toNat < 4096 then 4096 else s.i) := by
  unfold State.rangeFault State.addr
  split
  · simp; omega
  · simp only [Option.some.injEq]
    exact ⟨fun h => ⟨by omega, h.symm⟩, fun h => h.2.symm⟩

/-- The recorded address is the greater of I and 4096 (R176). -/
theorem rangeAddress_toNat (w : Word) : (if w.toNat < 4096 then (4096 : Word) else w).toNat = max w.toNat 4096 := by
  split
  · simp; omega
  · omega

/-- The block load (R175): V0..Vx from memory, the registers above x as before. -/
theorem State.getV_blockIn (s : State) (x r : Reg) :
    (s.blockIn x).getV r = if r.toNat ≤ x.toNat then s.mem.read (s.addr r.toNat) else s.getV r := by
  have key : ∀ n : Nat, n ≤ 16 → ((List.range n).foldl
      (fun t k => State.setV t (BitVec.ofNat 4 k) (s.mem.read (s.addr k))) s).getV r =
        if r.toNat < n then s.mem.read (s.addr r.toNat) else s.getV r := by
    intro n
    induction n with
    | zero => intro _; simp
    | succ n ih =>
      intro hn
      rw [List.range_succ, List.foldl_append, List.foldl_cons, List.foldl_nil, State.getV_setV, ih (by omega)]
      have hk : (BitVec.ofNat 4 n).toNat = n := by simp; omega
      by_cases h : r = BitVec.ofNat 4 n
      · simp [h]
        rw [if_pos (by omega), Nat.mod_eq_of_lt (by omega)]
      · have : r.toNat ≠ n := fun e => h (BitVec.eq_of_toNat_eq (by rw [hk, e]))
        by_cases h2 : r.toNat < n
        · rw [if_neg h, if_pos h2, if_pos (by omega)]
        · rw [if_neg h, if_neg h2, if_neg (by omega)]
  have := key (x.toNat + 1) (by have := x.isLt; omega)
  rw [State.blockIn, this]
  by_cases h : r.toNat ≤ x.toNat
  · rw [if_pos h, if_pos (by omega)]
  · rw [if_neg h, if_neg (by omega)]

/-- The block load writes registers only (R175). -/
theorem State.blockIn_only (s : State) (x : Reg) : s.blockIn x = { s with v := (s.blockIn x).v } := by
  unfold State.blockIn
  suffices h : ∀ (l : List Nat) (t : State), (∃ w, t = { s with v := w }) →
      ∃ w, l.foldl (fun t k => State.setV t (BitVec.ofNat 4 k) (s.mem.read (s.addr k))) t = { s with v := w } by
    obtain ⟨w, hw⟩ := h (List.range (x.toNat + 1)) s ⟨s.v, rfl⟩
    rw [hw]
  intro l
  induction l with
  | nil => exact fun t h => h
  | cons k rest ih =>
    rintro t ⟨w, rfl⟩
    exact ih _ ⟨_, rfl⟩

/-- The block store's bytes (R174): x + 1 of them. -/
@[simp] theorem State.blockOut_length (s : State) (x : Reg) : (s.blockOut x).length = x.toNat + 1 := by
  simp [State.blockOut]

/-- Byte k of the block is V[k] (R174). -/
theorem State.blockOut_getD (s : State) (x : Reg) {k : Nat} (h : k ≤ x.toNat) :
    (s.blockOut x).getD k 0 = s.getV (BitVec.ofNat 4 k) := by
  simp [State.blockOut, List.getD, show k < x.toNat + 1 by omega]

/-- Three digits (R173). -/
@[simp] theorem bcdDigits_length (a : Byte) : (bcdDigits a).length = 3 := rfl

/-- The pressed keys (R212). -/
theorem State.mem_pressedKeys (s : State) (k : Key) : k ∈ s.pressedKeys ↔ s.keyDown k = true := by
  unfold State.pressedKeys
  rw [List.mem_filter, List.mem_map]
  refine ⟨fun h => h.2, fun h => ⟨⟨k.toNat, List.mem_range.mpr k.isLt, ?_⟩, h⟩⟩
  simp

/-- No key is selected only when none is pressed (R212). -/
theorem selectKey_none {p : List Key} {d : Nat} : selectKey p d = none ↔ p = [] := by
  unfold selectKey
  split <;> simp_all

/-- A selected key is a pressed key (R212). -/
theorem selectKey_mem {p : List Key} {d : Nat} {k : Key} (h : selectKey p d = some k) : k ∈ p := by
  unfold selectKey at h
  split at h
  · simp at h
  · simp_all
  · rename_i k0 more _
    simp only [Option.some.injEq] at h
    have hlt : Config.keyChoice d % (more.length + 1) < (k0 :: more).length := by
      simpa using Nat.mod_lt _ (Nat.succ_pos _)
    rw [← h, List.getD_eq_getElem _ _ hlt]
    exact List.getElem_mem hlt

/-- V[x] as a key number (R216). -/
theorem State.keyIndexed_ok {s : State} {x : Reg} {k : Key} :
    s.keyIndexed x = .ok k ↔ (s.getV x).toNat ≤ 15 ∧ k = (s.getV x).setWidth 4 := by
  unfold State.keyIndexed
  split
  · simp; omega
  · simp only [Except.ok.injEq]
    exact ⟨fun h => ⟨by omega, h.symm⟩, fun h => h.2.symm⟩

/-- V[x] above 15 is the fault KEY_RANGE (R216). -/
theorem State.keyIndexed_error {s : State} {x : Reg} {c : Fault} :
    s.keyIndexed x = .error c ↔ 15 < (s.getV x).toNat ∧ c = .keyRange (s.getV x) := by
  unfold State.keyIndexed
  split
  · simp only [Except.error.injEq]
    exact ⟨fun h => ⟨by omega, h.symm⟩, fun h => h.2.symm⟩
  · simp; omega

end Sys2Proof.Machine
end

