-- ==== Sys2Proof/Laws/PerInstr.lean ====
section
/-! SUPPORT. The family MatchesItsRow: the word of every instruction is of its own row of the opcode map (R94): the
fixed nibbles of the word are those of the row. -/

namespace Sys2Proof.Laws.MatchesItsRow

/-- The word of the instruction has the row's fixed bits under the row's mask (R94). -/
def Statement (i : Instr) : Prop := encode i &&& (rowOf i).mask = (rowOf i).bits

/-- An NNN word under the mask of its major opcode. -/
theorem mask_nnn (a : Nibble) (nnn : Addr) : ((a ++ nnn : BitVec (4 + 12)) &&& (0xF#4 ++ 0x000#12)) = a ++ 0x000#12 := by
  rw [BitVec.and_append]
  congr 1
  · exact BitVec.and_allOnes
  · exact BitVec.and_zero

/-- An XKK word under the mask of its major opcode. -/
theorem mask_xkk (a x : Nibble) (kk : Byte) :
    ((a ++ x ++ kk : BitVec (4 + 4 + 8)) &&& (0xF#4 ++ 0x0#4 ++ 0x00#8)) = a ++ 0x0#4 ++ 0x00#8 := by
  rw [BitVec.and_append, BitVec.and_append]
  congr 1
  · congr 1
    · exact BitVec.and_allOnes
    · exact BitVec.and_zero
  · exact BitVec.and_zero

/-- An X word under the mask of its major opcode and low byte. -/
theorem mask_x (a x : Nibble) (kk : Byte) :
    ((a ++ x ++ kk : BitVec (4 + 4 + 8)) &&& (0xF#4 ++ 0x0#4 ++ 0xFF#8)) = a ++ 0x0#4 ++ kk := by
  rw [BitVec.and_append, BitVec.and_append]
  congr 1
  · congr 1
    · exact BitVec.and_allOnes
    · exact BitVec.and_zero
  · exact BitVec.and_allOnes

/-- An XY word under the mask of its major opcode and low nibble. -/
theorem mask_xy (a x y n : Nibble) :
    ((a ++ x ++ y ++ n : BitVec (4 + 4 + 4 + 4)) &&& (0xF#4 ++ 0x0#4 ++ 0x0#4 ++ 0xF#4)) =
      a ++ 0x0#4 ++ 0x0#4 ++ n := by
  rw [BitVec.and_append, BitVec.and_append, BitVec.and_append]
  congr 1
  · congr 1
    · congr 1
      · exact BitVec.and_allOnes
      · exact BitVec.and_zero
    · exact BitVec.and_zero
  · exact BitVec.and_allOnes

/-- An XYN word under the mask of its major opcode. -/
theorem mask_xyn (a x y n : Nibble) :
    ((a ++ x ++ y ++ n : BitVec (4 + 4 + 4 + 4)) &&& (0xF#4 ++ 0x0#4 ++ 0x0#4 ++ 0x0#4)) =
      a ++ 0x0#4 ++ 0x0#4 ++ 0x0#4 := by
  rw [BitVec.and_append, BitVec.and_append, BitVec.and_append]
  congr 1
  · congr 1
    · congr 1
      · exact BitVec.and_allOnes
      · exact BitVec.and_zero
    · exact BitVec.and_zero
  · exact BitVec.and_zero

theorem cls : Statement .cls := rfl
theorem ret : Statement .ret := rfl
theorem jp (nnn : Addr) : Statement (.jp nnn) := mask_nnn _ nnn
theorem call (nnn : Addr) : Statement (.call nnn) := mask_nnn _ nnn
theorem seImm (x : Reg) (kk : Byte) : Statement (.seImm x kk) := mask_xkk _ x kk
theorem sneImm (x : Reg) (kk : Byte) : Statement (.sneImm x kk) := mask_xkk _ x kk
theorem seReg (x y : Reg) : Statement (.seReg x y) := mask_xy _ x y _
theorem ldImm (x : Reg) (kk : Byte) : Statement (.ldImm x kk) := mask_xkk _ x kk
theorem addImm (x : Reg) (kk : Byte) : Statement (.addImm x kk) := mask_xkk _ x kk
theorem ldReg (x y : Reg) : Statement (.ldReg x y) := mask_xy _ x y _
theorem orReg (x y : Reg) : Statement (.orReg x y) := mask_xy _ x y _
theorem andReg (x y : Reg) : Statement (.andReg x y) := mask_xy _ x y _
theorem xorReg (x y : Reg) : Statement (.xorReg x y) := mask_xy _ x y _
theorem addReg (x y : Reg) : Statement (.addReg x y) := mask_xy _ x y _
theorem subReg (x y : Reg) : Statement (.subReg x y) := mask_xy _ x y _
theorem shr (x y : Reg) : Statement (.shr x y) := mask_xy _ x y _
theorem subnReg (x y : Reg) : Statement (.subnReg x y) := mask_xy _ x y _
theorem shl (x y : Reg) : Statement (.shl x y) := mask_xy _ x y _
theorem sneReg (x y : Reg) : Statement (.sneReg x y) := mask_xy _ x y _
theorem ldI (nnn : Addr) : Statement (.ldI nnn) := mask_nnn _ nnn
theorem jpV0 (nnn : Addr) : Statement (.jpV0 nnn) := mask_nnn _ nnn
theorem rnd (x : Reg) (kk : Byte) : Statement (.rnd x kk) := mask_xkk _ x kk
theorem drw (x y : Reg) (n : Nibble) : Statement (.drw x y n) := mask_xyn _ x y n
theorem skp (x : Reg) : Statement (.skp x) := mask_x _ x _
theorem sknp (x : Reg) : Statement (.sknp x) := mask_x _ x _
theorem ldVxDT (x : Reg) : Statement (.ldVxDT x) := mask_x _ x _
theorem ldVxK (x : Reg) : Statement (.ldVxK x) := mask_x _ x _
theorem ldDTVx (x : Reg) : Statement (.ldDTVx x) := mask_x _ x _
theorem ldSTVx (x : Reg) : Statement (.ldSTVx x) := mask_x _ x _
theorem addI (x : Reg) : Statement (.addI x) := mask_x _ x _
theorem ldF (x : Reg) : Statement (.ldF x) := mask_x _ x _
theorem ldB (x : Reg) : Statement (.ldB x) := mask_x _ x _
theorem ldMemVx (x : Reg) : Statement (.ldMemVx x) := mask_x _ x _
theorem ldVxMem (x : Reg) : Statement (.ldVxMem x) := mask_x _ x _

end Sys2Proof.Laws.MatchesItsRow
end

