-- ==== Sys2Proof/Laws/Ports.lean ====
section
/-! SUPPORT. What the port-level rendering does, said once (R243). -/

namespace Sys2Proof.Machine

/-- fb_q is what FB_GET answers (R77). -/
theorem fbGet_of_ports (s : State) (x : BitVec 6) (y : BitVec 5) :
    fbGet s x.toNat y.toNat = .ok (s.fb.get x.toNat y.toNat) :=
  if_pos ⟨x.isLt, y.isLt⟩

/-- dbg_q is what MEM_PEEK answers (R79). -/
theorem memPeek_of_ports (s : State) (a : BitVec 12) : memPeek s a.toNat = .ok (s.mem.read a.toNat) :=
  if_pos a.isLt

/-- A write just behind the end of an image makes it one byte longer. -/
@[simp] theorem writeImage_end (image : List Byte) (b : Byte) :
    writeImage image image.length b = image ++ [b] := by
  simp [writeImage]

/-- A cycle with rst keeps the core. -/
theorem clock_rst {p : PortIn} (h : p.rst = true) (s : PortState) :
    clock p s = { s with loading := some (s.received p) } :=
  if_pos h

/-- Outside reset a cycle starts from the core itself. -/
@[simp] theorem PortState.released_idle (s : State) : PortState.released ⟨s, none⟩ = s := rfl

/-- After reset a cycle starts from what RESET with the image received leaves. -/
@[simp] theorem PortState.released_loading (s : State) (rom : List Byte) :
    PortState.released ⟨s, some rom⟩ = runEvents [.reset rom] s :=
  rfl

end Sys2Proof.Machine
end

