-- ==== Sys2Proof/Laws/Screen.lean ====
section
/-! SUPPORT. The framebuffer primitives, pixel by pixel (R76), and what a drawn sprite leaves (R191, R192). -/

namespace Sys2Proof.Machine

/-- Two framebuffers with equal pixels are equal. -/
theorem Screen.ext_get {f g : Screen} (h : ∀ x y, x < 64 → y < 32 → f.get x y = g.get x y) : f = g := by
  apply Vector.ext
  intro y hy
  apply Vector.ext
  intro x hx
  have := h x y hx hy
  simpa [Screen.get, hx, hy] using this

/-- `get` after `toggle` (R76). -/
theorem Screen.get_toggle (f : Screen) (x y a b : Nat) :
    (f.toggle x y).get a b = if x < 64 ∧ y < 32 ∧ a = x ∧ b = y then !f.get x y else f.get a b := by
  by_cases h : x < 64 ∧ y < 32
  · by_cases ha : a < 64 ∧ b < 32
    · by_cases hb : b = y
      · subst hb
        by_cases hax : a = x
        · subst hax; simp [Screen.get, Screen.toggle, ha]
        · have : x ≠ a := fun e => hax e.symm
          simp [Screen.get, Screen.toggle, h, ha, hax, this]
      · have : y ≠ b := fun e => hb e.symm
        simp [Screen.get, Screen.toggle, h, ha, hb, this]
    · have h1 : (f.toggle x y).get a b = false := by simp [Screen.get, ha]
      have h2 : f.get a b = false := by simp [Screen.get, ha]
      rw [h1, h2, if_neg]
      rintro ⟨hx, hy, rfl, rfl⟩
      exact ha ⟨hx, hy⟩
  · have h1 : f.toggle x y = f := by simp [Screen.toggle, h]
    rw [h1, if_neg]
    rintro ⟨hx, hy, -⟩
    exact h ⟨hx, hy⟩

/-- `get` after `clear` (R76). -/
theorem Screen.get_clear (a b : Nat) : Screen.clear.get a b = false := by
  simp only [Screen.get, Screen.clear]
  split <;> simp

/-- The bits of one row, over any columns without repeats, land pixel by pixel (R191). -/
theorem drawCols_spec (x0 y : Nat) (b : Byte) (hy : y < 32) (cols : List Nat) (hn : cols.Nodup) (d : Drawing) :
    (∀ px py, (cols.foldl (drawPixel x0 y b) d).fb.get px py =
      (d.fb.get px py ^^ decide (py = y ∧ ∃ c ∈ cols, x0 + c < 64 ∧ px = x0 + c ∧ b.getLsbD (7 - c) = true))) ∧
    (cols.foldl (drawPixel x0 y b) d).hit =
      (d.hit || decide (∃ c ∈ cols, x0 + c < 64 ∧ b.getLsbD (7 - c) = true ∧ d.fb.get (x0 + c) y = true)) := by
  induction cols generalizing d with
  | nil => simp
  | cons c rest ih =>
    obtain ⟨hc, hr⟩ := List.nodup_cons.mp hn
    obtain ⟨ih1, ih2⟩ := ih hr (drawPixel x0 y b d c)
    rw [List.foldl_cons]
    by_cases h : x0 + c < 64 ∧ b.getLsbD (7 - c) = true
    · have hd : drawPixel x0 y b d c = ⟨d.fb.toggle (x0 + c) y, d.hit || d.fb.get (x0 + c) y⟩ := by
        simp [drawPixel, h.2, show ¬ 63 < x0 + c by omega]
      constructor
      · intro px py
        rw [ih1, hd]
        simp only [Screen.get_toggle, h.1, hy, true_and]
        by_cases hp : px = x0 + c ∧ py = y
        · obtain ⟨rfl, rfl⟩ := hp
          have : ¬ (∃ c' ∈ rest, x0 + c' < 64 ∧ c = c' ∧ b.getLsbD (7 - c') = true) := by
            rintro ⟨c', hm, -, e, -⟩; exact hc (e ▸ hm)
          simp [h.1, h.2, this]
        · have : (py = y ∧ ∃ c' ∈ c :: rest, x0 + c' < 64 ∧ px = x0 + c' ∧ b.getLsbD (7 - c') = true) ↔
              (py = y ∧ ∃ c' ∈ rest, x0 + c' < 64 ∧ px = x0 + c' ∧ b.getLsbD (7 - c') = true) := by
            constructor
            · rintro ⟨e, c', hm, h1, h2, h3⟩
              rcases List.mem_cons.mp hm with rfl | hm
              · exact absurd ⟨h2, e⟩ hp
              · exact ⟨e, c', hm, h1, h2, h3⟩
            · rintro ⟨e, c', hm, h1⟩; exact ⟨e, c', List.mem_cons_of_mem _ hm, h1⟩
          simp only [this, hp, if_false]
      · rw [ih2, hd]
        have hne : ∀ c' ∈ rest, (d.fb.toggle (x0 + c) y).get (x0 + c') y = d.fb.get (x0 + c') y := by
          intro c' hm
          rw [Screen.get_toggle, if_neg]
          rintro ⟨-, -, e, -⟩
          have : c' = c := by omega
          exact hc (this ▸ hm)
        have : (∃ c' ∈ rest, x0 + c' < 64 ∧ b.getLsbD (7 - c') = true ∧ (d.fb.toggle (x0 + c) y).get (x0 + c') y = true) ↔
            (∃ c' ∈ rest, x0 + c' < 64 ∧ b.getLsbD (7 - c') = true ∧ d.fb.get (x0 + c') y = true) := by
          constructor <;> rintro ⟨c', hm, h1, h2, h3⟩ <;> refine ⟨c', hm, h1, h2, ?_⟩ <;> simpa [hne c' hm] using h3
        simp only [this, List.exists_mem_cons_iff, h.1, h.2, true_and, Bool.decide_or, Bool.decide_eq_true, Bool.or_assoc]
    · have hd : drawPixel x0 y b d c = d := by
        simp only [drawPixel]
        split
        · rfl
        · rw [if_neg]; intro hb; exact h ⟨by omega, hb⟩
      rw [hd] at ih1 ih2 ⊢
      refine ⟨fun px py => ?_, ?_⟩
      · rw [ih1]
        have : (∃ c' ∈ c :: rest, x0 + c' < 64 ∧ px = x0 + c' ∧ b.getLsbD (7 - c') = true) ↔
              (∃ c' ∈ rest, x0 + c' < 64 ∧ px = x0 + c' ∧ b.getLsbD (7 - c') = true) := by
          rw [List.exists_mem_cons_iff]
          refine ⟨?_, Or.inr⟩
          rintro (⟨h1, -, h3⟩ | h1)
          · exact absurd ⟨h1, h3⟩ h
          · exact h1
        simp only [this]
      · rw [ih2]
        have : (∃ c' ∈ c :: rest, x0 + c' < 64 ∧ b.getLsbD (7 - c') = true ∧ d.fb.get (x0 + c') y = true) ↔
            (∃ c' ∈ rest, x0 + c' < 64 ∧ b.getLsbD (7 - c') = true ∧ d.fb.get (x0 + c') y = true) := by
          rw [List.exists_mem_cons_iff]
          refine ⟨?_, Or.inr⟩
          rintro (⟨h1, h3, -⟩ | h1)
          · exact absurd ⟨h1, h3⟩ h
          · exact h1
        simp only [this]

/-- One drawn row (R191). -/
theorem drawRow_spec (x0 y : Nat) (b : Byte) (d : Drawing) :
    (∀ px py, (drawRow x0 y b d).fb.get px py =
      (d.fb.get px py ^^
        decide (px < 64 ∧ py < 32 ∧ py = y ∧ ∃ c ∈ List.range 8, px = x0 + c ∧ b.getLsbD (7 - c) = true))) ∧
    ((drawRow x0 y b d).hit = true ↔
      d.hit = true ∨ ∃ c ∈ List.range 8, x0 + c < 64 ∧ y < 32 ∧ b.getLsbD (7 - c) = true ∧ d.fb.get (x0 + c) y = true) := by
  unfold drawRow
  by_cases hy : y > 31
  · rw [if_pos hy]
    refine ⟨fun px py => ?_, ?_⟩
    · rw [decide_eq_false, Bool.xor_false]
      rintro ⟨-, h1, h2, -⟩; omega
    · refine ⟨Or.inl, ?_⟩
      rintro (h | ⟨c, -, -, h, -⟩)
      · exact h
      · omega
  · rw [if_neg hy]
    obtain ⟨h1, h2⟩ := drawCols_spec x0 y b (by omega) (List.range 8) List.nodup_range d
    refine ⟨fun px py => ?_, ?_⟩
    · rw [h1]
      congr 2
      apply propext
      constructor
      · rintro ⟨rfl, c, hc, h3, rfl, h4⟩
        exact ⟨h3, by omega, rfl, c, hc, rfl, h4⟩
      · rintro ⟨h3, -, rfl, c, hc, rfl, h4⟩
        exact ⟨rfl, c, hc, h3, rfl, h4⟩
    · rw [h2, Bool.or_eq_true, decide_eq_true_eq]
      refine or_congr Iff.rfl ⟨?_, ?_⟩
      · rintro ⟨c, hc, h3, h4, h5⟩
        exact ⟨c, hc, h3, by omega, h4, h5⟩
      · rintro ⟨c, hc, h3, -, h4, h5⟩
        exact ⟨c, hc, h3, h4, h5⟩

/-- The rows of a sprite, over any row numbers without repeats (R191). -/
theorem drawRows_spec (rows : Nat → Byte) (x0 y0 : Nat) (l : List Nat) (hn : l.Nodup) (d : Drawing) :
    (∀ px py, (l.foldl (fun d r => drawRow x0 (y0 + r) (rows r) d) d).fb.get px py =
      (d.fb.get px py ^^ decide (px < 64 ∧ py < 32 ∧
        ∃ r ∈ l, py = y0 + r ∧ ∃ c ∈ List.range 8, px = x0 + c ∧ (rows r).getLsbD (7 - c) = true))) ∧
    ((l.foldl (fun d r => drawRow x0 (y0 + r) (rows r) d) d).hit = true ↔
      d.hit = true ∨ ∃ r ∈ l, ∃ c ∈ List.range 8, x0 + c < 64 ∧ y0 + r < 32 ∧ (rows r).getLsbD (7 - c) = true ∧
        d.fb.get (x0 + c) (y0 + r) = true) := by
  induction l generalizing d with
  | nil => simp
  | cons r rest ih =>
    obtain ⟨hr, hnr⟩ := List.nodup_cons.mp hn
    obtain ⟨ih1, ih2⟩ := ih hnr (drawRow x0 (y0 + r) (rows r) d)
    obtain ⟨h1, h2⟩ := drawRow_spec x0 (y0 + r) (rows r) d
    rw [List.foldl_cons]
    refine ⟨fun px py => ?_, ?_⟩
    · rw [ih1, h1]
      by_cases he : py = y0 + r
      · have hrest : ¬ (px < 64 ∧ py < 32 ∧
            ∃ r' ∈ rest, py = y0 + r' ∧ ∃ c ∈ List.range 8, px = x0 + c ∧ (rows r').getLsbD (7 - c) = true) := by
          rintro ⟨-, -, r', hm, e, -⟩
          exact hr ((show r' = r by omega) ▸ hm)
        rw [decide_eq_false hrest, Bool.xor_false]
        congr 2
        apply propext
        constructor
        · rintro ⟨h3, h4, h5, h6⟩
          exact ⟨h3, h4, r, List.mem_cons_self, h5, h6⟩
        · rintro ⟨h3, h4, r', hm, h5, h6⟩
          have : r' = r := by omega
          exact ⟨h3, h4, he, this ▸ h6⟩
      · rw [decide_eq_false (fun h => he h.2.2.1), Bool.xor_false]
        congr 2
        apply propext
        constructor
        · rintro ⟨h3, h4, r', hm, h5⟩
          exact ⟨h3, h4, r', List.mem_cons_of_mem _ hm, h5⟩
        · rintro ⟨h3, h4, r', hm, h5, h6⟩
          rcases List.mem_cons.mp hm with rfl | hm
          · exact absurd h5 he
          · exact ⟨h3, h4, r', hm, h5, h6⟩
    · have hkeep : ∀ r' ∈ rest, ∀ c, (drawRow x0 (y0 + r) (rows r) d).fb.get (x0 + c) (y0 + r') =
          d.fb.get (x0 + c) (y0 + r') := by
        intro r' hm c
        rw [h1, decide_eq_false, Bool.xor_false]
        rintro ⟨-, -, e, -⟩
        exact hr ((show r' = r by omega) ▸ hm)
      rw [ih2, h2, or_assoc]
      refine or_congr Iff.rfl ?_
      constructor
      · rintro (⟨c, h3, h4, h5, h6⟩ | ⟨r', hm, c, h3, h4, h5, h6, h7⟩)
        · exact ⟨r, List.mem_cons_self, c, h3, h4, h5, h6⟩
        · exact ⟨r', List.mem_cons_of_mem _ hm, c, h3, h4, h5, h6, hkeep r' hm c ▸ h7⟩
      · rintro ⟨r', hm, c, h3, h4, h5, h6, h7⟩
        rcases List.mem_cons.mp hm with rfl | hm
        · exact Or.inl ⟨c, h3, h4, h5, h6, h7⟩
        · exact Or.inr ⟨r', hm, c, h3, h4, h5, h6, (hkeep r' hm c).symm ▸ h7⟩

/-- A pixel on which a sprite bit lands is flipped. -/
theorem drawSprite_get_hit {rows : Nat → Byte} {x0 y0 n px py : Nat} (fb : Screen)
    (h : SpriteLands rows x0 y0 n px py) : (drawSprite rows x0 y0 n fb).fb.get px py = !fb.get px py := by
  obtain ⟨hx, hy, r, c, hr, hc, e1, e2, hb⟩ := h
  rw [drawSprite, (drawRows_spec rows x0 y0 (List.range n) List.nodup_range ⟨fb, false⟩).1, decide_eq_true,
    Bool.xor_true]
  exact ⟨hx, hy, r, List.mem_range.mpr hr, e1, c, List.mem_range.mpr hc, e2, hb⟩

/-- Every other pixel stays. -/
theorem drawSprite_get_miss {rows : Nat → Byte} {x0 y0 n px py : Nat} (fb : Screen)
    (h : ¬SpriteLands rows x0 y0 n px py) : (drawSprite rows x0 y0 n fb).fb.get px py = fb.get px py := by
  rw [drawSprite, (drawRows_spec rows x0 y0 (List.range n) List.nodup_range ⟨fb, false⟩).1, decide_eq_false,
    Bool.xor_false]
  rintro ⟨hx, hy, r, hr, e1, c, hc, e2, hb⟩
  exact h ⟨hx, hy, r, c, List.mem_range.mp hr, List.mem_range.mp hc, e1, e2, hb⟩

/-- The collision: some sprite bit lands on a pixel that was on before the draw. -/
theorem drawSprite_hit (rows : Nat → Byte) (x0 y0 n : Nat) (fb : Screen) :
    (drawSprite rows x0 y0 n fb).hit = true ↔
      ∃ px py, SpriteLands rows x0 y0 n px py ∧ fb.get px py = true := by
  rw [drawSprite, (drawRows_spec rows x0 y0 (List.range n) List.nodup_range ⟨fb, false⟩).2]
  simp only [Bool.false_eq_true, false_or]
  constructor
  · rintro ⟨r, hr, c, hc, hx, hy, hb, hg⟩
    exact ⟨x0 + c, y0 + r, ⟨hx, hy, r, c, List.mem_range.mp hr, List.mem_range.mp hc, rfl, rfl, hb⟩, hg⟩
  · rintro ⟨px, py, ⟨hx, hy, r, c, hr, hc, rfl, rfl, hb⟩, hg⟩
    exact ⟨r, List.mem_range.mpr hr, c, List.mem_range.mpr hc, hx, hy, hb, hg⟩

end Sys2Proof.Machine
end

