-- ==== Sys2Proof/Laws/Step.lean ====
section
/-! SUPPORT. What a STEP event can do, said once (R120 to R122). -/

namespace Sys2Proof.Machine

/-- The fetch succeeds (R122). -/
theorem fetch_ok {s : State} {op : Word} :
    fetch s = .ok op ↔ s.pc.toNat ≤ 4094 ∧ op = s.mem.readWord s.pc.toNat := by
  unfold fetch
  split
  · simp; omega
  · simp only [Except.ok.injEq]
    exact ⟨fun h => ⟨by omega, h.symm⟩, fun h => h.2.symm⟩

/-- The fetch faults (R122). -/
theorem fetch_error {s : State} {c : Fault} :
    fetch s = .error c ↔ 4094 < s.pc.toNat ∧ c = .memRange (if s.pc.toNat > 4095 then s.pc else 4096) := by
  unfold fetch
  split
  · simp only [Except.error.injEq]
    exact ⟨fun h => ⟨by omega, h.symm⟩, fun h => h.2.symm⟩
  · simp; omega

/-- Everything a step that answers a next state can have done: nothing, because a fault is latched; a fetch fault; an
instruction; an UNKNOWN word. -/
theorem step_cases {s t : State} (h : step s = .next t) :
    (∃ r, s.fault = some r ∧ t = s) ∨
    (∃ c, s.fault = none ∧ fetch s = .error c ∧ t = { s with fault := some ⟨c, s.pc, none⟩ }) ∨
    (∃ op i, s.fault = none ∧ fetch s = .ok op ∧ decode op = .ok i ∧ exec i s = .next t) ∨
    (∃ op g, s.fault = none ∧ fetch s = .ok op ∧ decode op = .error g ∧ t = s.advance) := by
  unfold step stepEvent at h
  split at h
  · rename_i r hr
    exact .inl ⟨r, hr, by simpa using h.symm⟩
  · rename_i hn
    split at h
    · rename_i c hc
      exact .inr (.inl ⟨c, hn, hc, by simpa [takeFault] using h.symm⟩)
    · rename_i op hop
      unfold execWord at h
      split at h
      · rename_i i hi
        exact .inr (.inr (.inl ⟨op, i, hn, hop, hi, h⟩))
      · rename_i g hg
        exact .inr (.inr (.inr ⟨op, g, hn, hop, hg, by simpa [execUnknown] using h.symm⟩))

end Sys2Proof.Machine
end

