-- ==== Sys2Proof/Tests/Slice0.lean ====
section
/-! SUPPORT. Tests: expected values from the spec's vectors (95_test_vectors.md), words written out from its encodings
(30_encoding.md), and for every statement with hypotheses a state and operands that meet them. -/

namespace Sys2Proof.Tests

open Sys2Proof Sys2Proof.Machine

/-- The reset state with some registers set. -/
def regs (l : List (Reg × Byte)) : State := l.foldl (fun s p => s.setV p.1 p.2) State.reset

/-- The state after one step that fetches the word w, s if the step stops. -/
def after (w : Nat) (s : State) : State :=
  match step (s.withFetchWord 16 w) with
  | .next t => t
  | .fault _ => s
  | .refused _ => s

/-- A state with two bytes of memory set. -/
def poke (s : State) (a : Nat) (b c : Byte) : State := s.setMem ((s.mem.write a b).write (a + 1) c)

/-- A fault record in the latch of s. -/
def latched (s : State) : State := s.faulted .stackUnderflow (some 0x00EE)

/-- The word, the PC and the cause of the fault that is latched. -/
def latch (s : State) : Option (Fault × Word × Option Word) := s.fault.map fun r => (r.cause, r.pc, r.op)

/-! ## Well-formed fields (R91, S12) -/

theorem test_fields_of_ABCD : fieldsOf 0xABCD = ⟨0xA, 0xB, 0xC, 0xD, 0xCD, 0xBCD⟩ := by decide
theorem test_fields_wellFormed : (Fields.mk 0xA 0xB 0xC 0xD 0xCD 0xBCD).WellFormed = true := by decide
/-- kk is not y * 16 + n. -/
theorem test_fields_kk_refused : (Fields.mk 0xA 0xB 0xC 0xD 0xDC 0xBDC).WellFormed = false := by decide
/-- nnn is not x * 256 + kk. -/
theorem test_fields_nnn_refused : (Fields.mk 0xA 0xB 0xC 0xD 0xCD 0xCCD).WellFormed = false := by decide

/-! ## Decoding: each word is nibbles written out from R92 and R94 -/

theorem test_decode_control :
    decode 0x00EE = .ok .ret ∧ decode 0x1ABC = .ok (.jp 0xABC) ∧ decode 0x2069 = .ok (.call 0x069) ∧
    decode 0x3A12 = .ok (.seImm 0xA 0x12) ∧ decode 0x4A12 = .ok (.sneImm 0xA 0x12) ∧
    decode 0x5AB0 = .ok (.seReg 0xA 0xB) ∧ decode 0x9AB0 = .ok (.sneReg 0xA 0xB) ∧
    decode 0xB123 = .ok (.jpV0 0x123) := by decide

theorem test_decode_alu :
    decode 0x632A = .ok (.ldImm 3 0x2A) ∧ decode 0x732A = .ok (.addImm 3 0x2A) ∧ decode 0x8120 = .ok (.ldReg 1 2) ∧
    decode 0x8121 = .ok (.orReg 1 2) ∧ decode 0x8122 = .ok (.andReg 1 2) ∧ decode 0x8123 = .ok (.xorReg 1 2) ∧
    decode 0x8124 = .ok (.addReg 1 2) ∧ decode 0x8125 = .ok (.subReg 1 2) ∧ decode 0x8126 = .ok (.shr 1 2) ∧
    decode 0x8127 = .ok (.subnReg 1 2) ∧ decode 0x812E = .ok (.shl 1 2) ∧ decode 0xC1F0 = .ok (.rnd 1 0xF0) := by decide

theorem test_decode_index_memory :
    decode 0xA123 = .ok (.ldI 0x123) ∧ decode 0xF11E = .ok (.addI 1) ∧ decode 0xF129 = .ok (.ldF 1) ∧
    decode 0xF133 = .ok (.ldB 1) ∧ decode 0xF255 = .ok (.ldMemVx 2) ∧ decode 0xF265 = .ok (.ldVxMem 2) := by decide

theorem test_decode_display : decode 0x00E0 = .ok .cls ∧ decode 0xD125 = .ok (.drw 1 2 5) := by decide

theorem test_decode_keys_timers :
    decode 0xE19E = .ok (.skp 1) ∧ decode 0xEAA1 = .ok (.sknp 0xA) ∧ decode 0xF107 = .ok (.ldVxDT 1) ∧
    decode 0xF10A = .ok (.ldVxK 1) ∧ decode 0xF115 = .ok (.ldDTVx 1) ∧ decode 0xF118 = .ok (.ldSTVx 1) := by decide

/-- The UNKNOWN words of section 2.1. -/
theorem test_decode_unknown :
    decode 0x0000 = .error .zeroGroup ∧ decode 0x0123 = .error .zeroGroup ∧ decode 0x00E1 = .error .zeroGroup ∧
    decode 0x5121 = .error .fiveGroup ∧ decode 0x8128 = .error .eightGroup ∧ decode 0x812F = .error .eightGroup ∧
    decode 0x9121 = .error .nineGroup ∧ decode 0xE100 = .error .eGroup ∧ decode 0xE19F = .error .eGroup ∧
    decode 0xF100 = .error .fGroup ∧ decode 0xF175 = .error .fGroup ∧ decode 0xF1FF = .error .fGroup := by decide

/-- R102: LD V3, 42 is the bytes 63 2A; one byte is no word. -/
theorem test_decode_bytes :
    decodeBytes [0x63, 0x2A, 0x81] = .ok (.ldImm 3 0x2A, [0x81]) ∧ decodeBytes [0x63] = .error .tooShort := by decide

theorem test_decode_table_word : decodeTableWord 16 0xD125 = some (.drw 1 2 5) := by decide

/-! ## The step: fetch, UNKNOWN words and faults (section 2.1) -/

theorem test_unknown_word_advances :
    (after 0x00E1 State.reset).pc = 0x202 ∧ stepDiag (State.reset.withFetchWord 16 0x00E1) = some ⟨0x200, 0x00E1⟩ := by
  decide

theorem test_fetch_at_top : fetch { State.reset with pc := 0xFFE } = .ok 0x0000 := by decide

theorem test_fetch_faults :
    fetch { State.reset with pc := 0xFFF } = .error (.memRange 4096) ∧
    fetch { State.reset with pc := 0x1000 } = .error (.memRange 4096) ∧
    fetch { State.reset with pc := 0xFFFF } = .error (.memRange 65535) := by decide

/-- Odd PC: the bytes 61 07 at 0x201 execute as LD V1, 7. -/
theorem test_odd_pc :
    (after 0x6107 { State.reset with pc := 0x201 }).getV 1 = 7 ∧
    (after 0x6107 { State.reset with pc := 0x201 }).pc = 0x203 := by decide

theorem test_latched_step : step (latched State.reset) = .next (latched State.reset) := rfl

/-! ## Control transfer (section 2.2, S8) -/

theorem test_jp : (after 0x1201 State.reset).pc = 0x201 := by decide

theorem test_jpV0 :
    (after 0xB300 (regs [(0, 4), (3, 0x80)])).pc = 0x304 ∧ (after 0xBFFF (regs [(0, 0xFF)])).pc = 0x10FE := by
  decide

theorem test_call :
    (after 0x2069 State.reset).slot 1 = 0x202 ∧ (after 0x2069 State.reset).sp = 1 ∧
    (after 0x2069 State.reset).pc = 0x069 := by decide

theorem test_call_overflow :
    latch (after 0x2300 { State.reset with sp := 15 }) = some (.stackOverflow, 0x200, some 0x2300) ∧
    (after 0x2300 { State.reset with sp := 14 }).slot 15 = 0x202 := by decide

theorem test_ret :
    let s := { State.reset with sp := 3, stack := State.reset.stack.set 3 0x456 }
    (after 0x00EE s).pc = 0x456 ∧ (after 0x00EE s).sp = 2 ∧ (after 0x00EE s).slot 3 = 0x456 := by decide

theorem test_ret_underflow : latch (after 0x00EE State.reset) = some (.stackUnderflow, 0x200, some 0x00EE) := by
  decide

theorem test_seImm :
    (after 0x3100 (regs [(1, 0)])).pc = 0x204 ∧ (after 0x3100 (regs [(1, 1)])).pc = 0x202 := by decide

theorem test_sneImm :
    (after 0x4100 (regs [(1, 0)])).pc = 0x202 ∧ (after 0x4100 (regs [(1, 1)])).pc = 0x204 := by decide

theorem test_seReg :
    (after 0x5120 (regs [(1, 3), (2, 3)])).pc = 0x204 ∧ (after 0x5120 (regs [(1, 3), (2, 4)])).pc = 0x202 := by
  decide

theorem test_sneReg :
    (after 0x9120 (regs [(1, 3), (2, 3)])).pc = 0x202 ∧ (after 0x9120 (regs [(1, 3), (2, 4)])).pc = 0x204 := by
  decide

/-- A skip at 0xFFE leaves PC = 0x1002 without a fault. -/
theorem test_skip_at_top :
    (after 0x3100 { State.reset with pc := 0xFFE }).pc = 0x1002 ∧
    (after 0x3100 { State.reset with pc := 0xFFE }).fault = none := by decide

/-! ## Arithmetic and logic (section 2.3): V1 and VF after the step -/

/-- V1 and VF after a step. -/
def v1f (w : Nat) (l : List (Reg × Byte)) : Byte × Byte := ((after w (regs l)).getV 1, (after w (regs l)).getV 0xF)

theorem test_ldImm : v1f 0x61AB [(0xF, 7)] = (0xAB, 7) := by decide
theorem test_ldReg : v1f 0x8120 [(2, 0x99), (0xF, 7)] = (0x99, 7) := by decide
theorem test_or : v1f 0x8121 [(1, 0x55), (2, 0xAA), (0xF, 7)] = (0xFF, 7) := by decide
theorem test_and : v1f 0x8122 [(1, 0x55), (2, 0xAA), (0xF, 7)] = (0x00, 7) := by decide
theorem test_xor : v1f 0x8123 [(1, 0x55), (2, 0xAA), (0xF, 7)] = (0xFF, 7) := by decide
theorem test_addImm_wraps : v1f 0x71FF [(1, 0xFF), (0xF, 0x55)] = (0xFE, 0x55) := by decide
theorem test_addImm_on_vf : (after 0x7F01 (regs [(0xF, 0xFF)])).getV 0xF = 0 := by decide
theorem test_addReg : v1f 0x8124 [(1, 200), (2, 100), (0xF, 0xAA)] = (44, 1) := by decide
theorem test_addReg_vf_named :
    (after 0x8F24 (regs [(0xF, 0xF0), (2, 0x20)])).getV 0xF = 0x10 ∧ v1f 0x81F4 [(1, 0xFF), (0xF, 1)] = (0, 1) := by
  decide
theorem test_subReg : v1f 0x8125 [(1, 5), (2, 5)] = (0, 1) ∧ v1f 0x8125 [(1, 5), (2, 7)] = (0xFE, 0) := by decide
theorem test_subReg_vf_named :
    (after 0x8F25 (regs [(0xF, 5), (2, 7)])).getV 0xF = 0xFE ∧ v1f 0x81F5 [(1, 5), (0xF, 7)] = (0xFE, 0) := by
  decide
theorem test_subnReg : v1f 0x8127 [(1, 5), (2, 5)] = (0, 1) ∧ v1f 0x8127 [(1, 7), (2, 5)] = (0xFE, 0) := by
  decide
theorem test_subnReg_vf_named :
    (after 0x8F27 (regs [(0xF, 5), (2, 7)])).getV 0xF = 2 ∧ v1f 0x81F7 [(1, 5), (0xF, 7)] = (2, 1) := by decide
theorem test_shr : v1f 0x8126 [(1, 0x55), (2, 0xAA)] = (0x2A, 1) ∧ v1f 0x8126 [(1, 0x80), (0xF, 1)] = (0x40, 0) := by
  decide
theorem test_shr_vf : (after 0x8F06 (regs [(0xF, 2)])).getV 0xF = 1 := by decide
theorem test_shl : v1f 0x812E [(1, 0xAA), (2, 0x55)] = (0x54, 1) ∧ v1f 0x812E [(1, 0x40), (0xF, 1)] = (0x80, 0) := by
  decide
theorem test_shl_vf : (after 0x8F0E (regs [(0xF, 0x81)])).getV 0xF = 0x02 := by decide

/-- RND with the mask 0 gives 0 for every random byte, and leaves VF. -/
theorem test_rnd_zero_mask (s : State) : ∃ t, exec (.rnd 1 0) s = .next t ∧ t.getV 1 = 0 ∧ t.getV 0xF = s.getV 0xF := by
  refine ⟨_, rfl, ?_, ?_⟩
  · show (s.v.set 1 (Config.rand s.randDraws &&& 0))[1] = 0
    simp
  · show (s.v.set 1 (Config.rand s.randDraws &&& 0))[15] = s.v[15]
    simp

/-! ## Index and memory (section 2.4) -/

theorem test_ldI : (after 0xAFFF State.reset).i = 0xFFF := by decide
theorem test_addI :
    (after 0xF11E { regs [(1, 1)] with i := 0xFFF }).i = 0x1000 ∧
    (after 0xF11E { regs [(1, 0xFF)] with i := 0xFFFF }).i = 0x00FE := by decide
theorem test_ldF :
    (after 0xF129 (regs [(1, 0x0F)])).i = 0x09B ∧ (after 0xF129 (regs [(1, 0xFF)])).i = 0x54B := by decide

/-- S10: 162 is 1, 6, 2; and 255 is 2, 5, 5. -/
theorem test_ldB :
    let m := (after 0xF133 { regs [(1, 162)] with i := 0x300 }).mem
    let n := (after 0xF133 { regs [(1, 255)] with i := 0xFFD }).mem
    [m.read 0x300, m.read 0x301, m.read 0x302] = [1, 6, 2] ∧ [n.read 0xFFD, n.read 0xFFE, n.read 0xFFF] = [2, 5, 5] := by
  decide

theorem test_ldB_range :
    latch (after 0xF133 { regs [(1, 123)] with i := 4094 }) = some (.memRange 4096, 0x200, some 0xF133) ∧
    latch (after 0xF133 { regs [(1, 123)] with i := 0xFFFF }) = some (.memRange 65535, 0x200, some 0xF133) := by
  decide

theorem test_ldMemVx :
    let t := after 0xF055 { regs [(0, 0x12), (1, 0x34)] with i := 0x300 }
    [t.mem.read 0x2FF, t.mem.read 0x300, t.mem.read 0x301] = [0, 0x12, 0] ∧ t.i = 0x300 := by decide

/-- The font is writable; the block of 16 registers ends at 4095. -/
theorem test_ldMemVx_edges :
    (after 0xF055 { State.reset with i := 0x050 }).mem.read 0x050 = 0 ∧
    (after 0xFF55 { regs [(0, 0x10), (0xF, 0x1F)] with i := 4080 }).mem.read 4095 = 0x1F ∧
    latch (after 0xFF55 { State.reset with i := 4081 }) = some (.memRange 4096, 0x200, some 0xFF55) := by decide

theorem test_ldVxMem :
    let t := after 0xF465 { regs [(5, 0x77)] with i := 0x050 }
    [t.getV 0, t.getV 1, t.getV 2, t.getV 3, t.getV 4, t.getV 5] = [0xF0, 0x90, 0x90, 0x90, 0xF0, 0x77] ∧
    t.i = 0x050 := by decide

theorem test_ldVxMem_range :
    latch (after 0xF165 { State.reset with i := 4095 }) = some (.memRange 4096, 0x200, some 0xF165) := by decide

/-! ## Display (section 2.5) -/

/-- The pixels that are on, as (column, row), among some columns and rows. -/
def litAt (s : State) (cols rows : List Nat) : List (Nat × Nat) :=
  (rows.flatMap fun y => cols.map fun x => (x, y)).filter fun p => s.fb.get p.1 p.2

/-- The reset state with I = 0x300 and two sprite bytes there. -/
def sprite (b c : Byte) (l : List (Reg × Byte)) : State := poke { regs l with i := 0x300 } 0x300 b c

theorem test_cls :
    let s := { regs [(0xF, 9)] with fb := (State.reset.fb.toggle 0 0).toggle 63 31 }
    litAt (after 0x00E0 s) [0, 63] [0, 31] = [] ∧ (after 0x00E0 s).drawPending = true ∧
    (after 0x00E0 s).getV 0xF = 9 := by decide

/-- S6: the second draw erases the first and reports the collision. -/
theorem test_drw_twice :
    let t := after 0xD011 (sprite 0xFF 0 [])
    let u := after 0xD011 { t with pc := 0x200 }
    litAt t [0, 1, 7, 8] [0, 1] = [(0, 0), (1, 0), (7, 0)] ∧ t.getV 0xF = 0 ∧ t.drawPending = true ∧
    litAt u [0, 1, 7, 8] [0, 1] = [] ∧ u.getV 0xF = 1 := by decide

/-- S7 and the wrapped anchor: clipping at the right edge, and (69, 35) taken as (5, 3); the old VF as anchor column. -/
theorem test_drw_edges :
    litAt (after 0xD011 (sprite 0xFF 0 [(0, 60)])) [0, 3, 59, 60, 63] [0, 1] = [(60, 0), (63, 0)] ∧
    litAt (after 0xD011 (sprite 0x80 0 [(0, 69), (1, 35)])) [4, 5, 6] [2, 3, 4] = [(5, 3)] ∧
    litAt (after 0xDF11 (sprite 0x80 0 [(0xF, 5), (1, 2)])) [0, 5] [0, 2] = [(5, 2)] := by decide

/-- No row: no range check, VF written 0. -/
theorem test_drw_no_rows :
    let t := after 0xD010 { regs [(0xF, 1)] with i := 0xFFFF }
    t.getV 0xF = 0 ∧ t.drawPending = true ∧ t.fault = none := by decide

theorem test_drw_range :
    latch (after 0xD012 { regs [(0xF, 7)] with i := 4095 }) = some (.memRange 4096, 0x200, some 0xD012) := by decide

/-! ## Keys and timers (sections 2.6, 2.7, S9, S11) -/

theorem test_skp :
    (after 0xE19E ((regs [(1, 5)]).setKey 5 true)).pc = 0x204 ∧ (after 0xE19E (regs [(1, 5)])).pc = 0x202 := by
  decide

theorem test_skp_range :
    latch (after 0xE19E ((regs [(1, 16)]).setKey 0 true)) = some (.keyRange 16, 0x200, some 0xE19E) := by decide

theorem test_sknp :
    (after 0xE1A1 ((regs [(1, 5)]).setKey 5 true)).pc = 0x202 ∧ (after 0xE1A1 (regs [(1, 5)])).pc = 0x204 := by
  decide

theorem test_sknp_range : latch (after 0xE1A1 (regs [(1, 255)])) = some (.keyRange 255, 0x200, some 0xE1A1) := by
  decide

/-- S9: no key, nothing happens; one key, its number. -/
theorem test_ldVxK :
    (after 0xF10A (regs [(1, 0x99)])).pc = 0x200 ∧ (after 0xF10A (regs [(1, 0x99)])).getV 1 = 0x99 ∧
    (after 0xF10A ((regs [(1, 0x99)]).setKey 15 true)).getV 1 = 15 ∧
    (after 0xF10A ((regs [(1, 0x99)]).setKey 15 true)).pc = 0x202 := by decide

/-- With keys 7 and 11 pressed, V1 is 7 or 11. -/
theorem test_ldVxK_two_keys (d : Nat) : selectKey [7, 11] d = some 7 ∨ selectKey [7, 11] d = some 11 := by
  simp only [selectKey, List.length_cons, List.length_nil]
  have h := Nat.mod_lt (Config.keyChoice d) (show 0 < 0 + 1 + 1 by decide)
  generalize Config.keyChoice d % (0 + 1 + 1) = k at h ⊢
  match k, h with
  | 0, _ => exact .inl rfl
  | 1, _ => exact .inr rfl

theorem test_ldVxDT : (after 0xF107 { State.reset with dt := 0x3C }).getV 1 = 0x3C := by decide
theorem test_ldDTVx : (after 0xF115 (regs [(1, 0xFF)])).dt = 255 := by decide
theorem test_ldSTVx :
    (after 0xF118 (regs [(1, 1)])).st = 1 ∧ (after 0xF118 (regs [(1, 1)])).soundActive = false := by decide

/-- S11: the tick that finds ST = 1 still reports sound, the next does not; no timer goes below 0. -/
theorem test_tick :
    let t := runEvents [.tick] { State.reset with st := 1, dt := 2 }
    let u := runEvents [.tick] t
    (t.dt, t.st, t.soundActive) = (1, 0, true) ∧ (u.dt, u.st, u.soundActive) = (0, 0, false) := by decide

/-! ## Reset, ROM and ports -/

/-- S1, and the first and last bytes of the font. -/
theorem test_font :
    (List.range 5).map (fun k => State.reset.mem.read (0x050 + k)) = [0xF0, 0x90, 0x90, 0x90, 0xF0] ∧
    State.reset.mem.read 0x04F = 0 ∧ State.reset.mem.read 0x09F = 0x80 ∧ State.reset.mem.read 0x0A0 = 0 := by decide

/-- The ROM of program P1 in place, and its first step. -/
theorem test_reset_rom :
    let s := runEvents [.reset [0x60, 0x00, 0x61, 0x01]] (latched (regs [(3, 9)]))
    s.mem.read 0x200 = 0x60 ∧ s.mem.read 0x203 = 0x01 ∧ s.mem.read 0x204 = 0 ∧ s.getV 3 = 0 ∧ s.fault = none ∧
    (runEvents [.step] s).pc = 0x202 := by decide

/-- Inputs of a cycle with a STEP, a TICK and all keys up; the read ports at (3, 0) and at 0x050. -/
def pins : PortIn where
  rst := false
  romWe := false
  romAddr := 0
  romData := 0
  stepEn := true
  tickEn := true
  keyIn := State.reset.keys
  drawAck := false
  fbX := 3
  fbY := 0
  dbgAddr := 0x050

/-- D0 05 (DRW V0, V0, 5) loaded by rst over a machine with V3 = 9: nothing happens while rst is held; the next cycle
draws what I = 0 points at, five zero bytes, and the read ports show the dark pixel and the font's first byte. -/
theorem test_ports_rst :
    let s : PortState := clocks (romCyclesFrom pins 0 [0xD0, 0x05]) ⟨regs [(3, 9)], none⟩
    let t := clock pins s
    let o := clockOut pins s
    s.core.getV 3 = 9 ∧ t.core.getV 3 = 0 ∧ t.core.pc = 0x202 ∧ o.drawPending = true ∧ o.faultValid = false ∧
    o.diagValid = false ∧ o.fbQ = false ∧ o.dbgQ = 0xF0 := by decide

/-- fb_q with V0 drawn from the font: the pixel (3, 0) of glyph 0 is on; an UNKNOWN word makes diag valid. -/
theorem test_ports_outputs :
    let o := clockOut pins ⟨({ State.reset with i := 0x050 } : State).withFetchWord 16 0xD005, none⟩
    let u := clockOut pins ⟨State.reset, none⟩
    o.fbQ = true ∧ o.diagValid = false ∧ u.fbQ = false ∧ u.diagValid = true ∧ u.diagPc = some 0x200 := by decide

/-! ## Witnesses: the hypotheses of the statements can be met, each clause at a boundary -/

theorem witness_EncodeOfDecode : decode 0x8FF4 = .ok (.addReg 0xF 0xF) := by decide

theorem witness_DecodeFollowsOpcodeMap :
    rowOf (.shl 1 2) ∈ opcodeRows ∧ (rowOf (.shl 1 2)).matchesWord 0x812E = true ∧ decode 0x812E = .ok (.shl 1 2) := by
  decide

theorem witness_UnknownGroupsAreExact :
    decode 0x0FFF = .error .zeroGroup ∧ decode 0x500F = .error .fiveGroup ∧ decode 0x800D = .error .eightGroup ∧
    decode 0x9001 = .error .nineGroup ∧ decode 0xE0A2 = .error .eGroup ∧ decode 0xF066 = .error .fGroup := by decide

theorem witness_StepRunsDecodedInstruction :
    let s := ({ State.reset with pc := 4094 } : State).withFetchWord 16 0x6107
    s.fault = none ∧ s.pc.toNat ≤ 4094 ∧
    decodeBytes [s.mem.read s.pc.toNat, s.mem.read (s.pc.toNat + 1)] = .ok (.ldImm 1 7, []) := by decide

theorem witness_UnknownWordOnlyAdvances :
    let s : State := { State.reset with pc := 4094 }
    s.fault = none ∧ fetch s = .ok 0x0000 ∧ decode 0x0000 = .error .zeroGroup := by decide

theorem witness_DiagnosticExactlyForUnknown : stepDiag State.reset = some ⟨0x200, 0x0000⟩ := by decide

theorem witness_FetchBeyondMemoryFaults :
    let s : State := { State.reset with pc := 4095 }
    let t : State := { State.reset with pc := 4096 }
    s.fault = none ∧ 4094 < s.pc.toNat ∧ ¬4095 < s.pc.toNat ∧ t.fault = none ∧ 4095 < t.pc.toNat := by decide

theorem witness_LatchedMachineStands : (latched State.reset).fault = some ⟨.stackUnderflow, 0x200, some 0x00EE⟩ := by
  decide

theorem witness_FaultEntryWritesOnlyTheLatch :
    ∃ t, State.running { State.reset with pc := 4095 } ∧ step { State.reset with pc := 4095 } = .next t ∧ ¬t.running :=
  ⟨_, rfl, rfl, nofun⟩

/-- Each cause of R231, from a running state. -/
theorem witness_FaultsHaveTheirCauses :
    (∃ t, exec (.drw 0 0 2) { State.reset with i := 4095 } = .next t ∧
      t.fault = some ⟨.memRange 4096, 0x200, some 0xD002⟩) ∧
    (∃ t, exec (.ldB 0) { State.reset with i := 4094 } = .next t ∧
      t.fault = some ⟨.memRange 4096, 0x200, some 0xF033⟩) ∧
    (∃ t, exec (.ldMemVx 1) { State.reset with i := 0xFFFF } = .next t ∧
      t.fault = some ⟨.memRange 65535, 0x200, some 0xF155⟩) ∧
    (∃ t, exec (.ldVxMem 1) { State.reset with i := 4095 } = .next t ∧
      t.fault = some ⟨.memRange 4096, 0x200, some 0xF165⟩) ∧
    (∃ t, exec (.call 0) { State.reset with sp := 15 } = .next t ∧
      t.fault = some ⟨.stackOverflow, 0x200, some 0x2000⟩) ∧
    (∃ t, exec .ret State.reset = .next t ∧ t.fault = some ⟨.stackUnderflow, 0x200, some 0x00EE⟩) ∧
    (∃ t, exec (.skp 1) (regs [(1, 16)]) = .next t ∧ t.fault = some ⟨.keyRange 16, 0x200, some 0xE19E⟩) ∧
    (∃ t, exec (.sknp 1) (regs [(1, 16)]) = .next t ∧ t.fault = some ⟨.keyRange 16, 0x200, some 0xE1A1⟩) :=
  ⟨⟨_, rfl, rfl⟩, ⟨_, rfl, rfl⟩, ⟨_, rfl, rfl⟩, ⟨_, rfl, rfl⟩, ⟨_, rfl, rfl⟩, ⟨_, rfl, rfl⟩, ⟨_, rfl, rfl⟩,
    ⟨_, rfl, rfl⟩⟩

/-- A step that goes on, and one that faults after its fetch. -/
theorem witness_PcMovesAsListed :
    State.reset.running ∧ fetch State.reset = .ok 0x0000 ∧ (∃ t, step State.reset = .next t ∧ t.running) ∧
    ∃ t, fetch (State.reset.withFetchWord 16 0x00EE) = .ok 0x00EE ∧
      step (State.reset.withFetchWord 16 0x00EE) = .next t ∧ ¬t.running :=
  ⟨rfl, rfl, ⟨_, rfl, rfl⟩, _, rfl, rfl, nofun⟩

/-- A state other than reset that meets the invariant with a latched fault and a full stack. -/
theorem witness_StepKeepsInvariant :
    State.Inv (latched { State.reset with sp := 15, pc := 0x10FE, stack := State.reset.stack.set 15 4096 }) ∧
    ∃ t, step (latched { State.reset with sp := 15, pc := 0x10FE, stack := State.reset.stack.set 15 4096 }) = .next t :=
  ⟨⟨rfl, by decide, by decide, rfl, by rintro r ⟨⟩; rfl⟩, _, rfl⟩

theorem witness_HistoriesKeepInvariant : State.Inv { State.reset with pc := 0x10FE } :=
  ⟨rfl, by decide, by decide, rfl, by rintro r ⟨⟩⟩

theorem witness_CanonicalMemoriesAreEqual :
    Memory.wf [(0x050, 1), (4095, 2)] = true ∧
    ∀ a : Nat, Memory.read [(0x050, 1), (4095, 2)] a = Memory.read ((Memory.write [] 4095 2).write 0x050 1) a :=
  ⟨by decide, fun _ => rfl⟩

/-- The last byte of the block, V2 at 0x202, is the high byte of the next word. -/
theorem witness_StoreSeenByNextFetch :
    let s : State := { State.reset with i := 0x200 }
    s.mem.wf = true ∧ s.i.toNat + (2 : Reg).toNat ≤ 4095 ∧ (2 : Reg).toNat ≤ (2 : Reg).toNat ∧
    s.i.toNat + (2 : Reg).toNat = s.pc.toNat + 2 ∧ s.pc.toNat + 2 ≤ 4094 := by decide

theorem witness_CallResult :
    ({ State.reset with sp := 14 } : State).sp ≠ 15 ∧ ({ State.reset with sp := 15 } : State).sp = 15 := by decide

theorem witness_ReturnResult : ({ State.reset with sp := 1 } : State).sp ≠ 0 ∧ State.reset.sp = 0 := by decide

theorem witness_CallThenReturn : ({ State.reset with sp := 14 } : State).sp ≠ 15 := by decide

theorem witness_SkipResults : (15 : Nibble) ≠ 0 ∧ (1 : Nibble) ≠ 0 := by decide

theorem witness_BcdStoreResult :
    let s : State := { State.reset with i := 4093 }
    let t : State := { State.reset with i := 4094 }
    s.mem.wf = true ∧ s.i.toNat + 2 ≤ 4095 ∧ t.mem.wf = true ∧ 4095 < t.i.toNat + 2 := by decide

theorem witness_BlockStoreResult :
    let s : State := { State.reset with i := 4080 }
    let t : State := { State.reset with i := 4081 }
    s.mem.wf = true ∧ s.i.toNat + (15 : Reg).toNat ≤ 4095 ∧ (15 : Reg).toNat ≤ (15 : Reg).toNat ∧ t.mem.wf = true ∧
    4095 < t.i.toNat + (15 : Reg).toNat := by decide

theorem witness_BlockLoadResult :
    let s : State := { State.reset with i := 4080 }
    let t : State := { State.reset with i := 4081 }
    s.i.toNat + (15 : Reg).toNat ≤ 4095 ∧ 4095 < t.i.toNat + (15 : Reg).toNat := by decide

/-- No row; the last row at 4095; one row more; a set bit that lands, on a lit pixel and on a dark one. -/
theorem witness_DrawClosedForm :
    let s : State := { State.reset with i := 4095 }
    (0 : Nibble) = 0 ∧ s.i.toNat + ((1 : Nibble).toNat - 1) ≤ 4095 ∧
    (2 : Nibble) ≠ 0 ∧ 4095 < s.i.toNat + ((2 : Nibble).toNat - 1) := by decide

theorem witness_DrawClosedForm_lands :
    SpriteLands (fun _ => 0x81) 56 31 2 63 31 ∧ ¬SpriteLands (fun _ => 0x81) 57 31 2 0 31 ∧
    (State.reset.fb.toggle 63 31).get 63 31 = true ∧ State.reset.fb.get 63 31 = false :=
  ⟨⟨by decide, by decide, 0, 7, by decide, by decide, rfl, rfl, by decide⟩,
    fun ⟨_, _, _, _, _, _, _, h, _⟩ => by omega, by decide, by decide⟩

/-- VF is no anchor register here, so the anchor is the same at the second draw. -/
theorem witness_DrawTwiceRestores :
    ∃ t, exec (.drw 0 1 1) { State.reset with i := 4095 } = .next t ∧
      (t.getV 0).toNat % 64 = (State.reset.getV 0).toNat % 64 ∧ (t.getV 1).toNat % 32 = (State.reset.getV 1).toNat % 32 :=
  ⟨_, rfl, rfl, rfl⟩

theorem witness_KeySkipResults :
    ((regs [(1, 15)]).getV 1).toNat = (15 : Key).toNat ∧ 15 < ((regs [(1, 16)]).getV 1).toNat := by decide

theorem witness_KeyWaitResult :
    (∀ k, State.reset.keyDown k = false) ∧ ∃ k, (State.reset.setKey 15 true).keyDown k = true := by decide

theorem witness_TickResult : State.reset.running ∧ ¬(latched State.reset).running := ⟨rfl, nofun⟩

theorem witness_TimersCountDown : State.running { State.reset with dt := 255, st := 255 } := rfl

theorem witness_RomIsPlaced :
    (List.replicate 3584 (0xFF : Byte)).length ≤ 3584 ∧ 3583 < (List.replicate 3584 (0xFF : Byte)).length := by
  rw [List.length_replicate]; decide

theorem witness_ResetLeavesState : (List.replicate 3584 (0xFF : Byte)).length ≤ 3584 ∧ 0x050 ≤ 0x050 ∧ 0x09F < 0x0A0 ∧
    (0x04F < 0x050 ∨ 0x1FF < 0x200) :=
  ⟨(List.length_replicate ..).le, by decide, by decide, by decide⟩

theorem witness_OversizeRomRefused : 3584 < (List.replicate 3585 (0xFF : Byte)).length := by
  rw [List.length_replicate]; decide

theorem witness_ReadPortsCheckTheirRange :
    (63 < 64 ∧ 31 < 32) ∧ (63 < 64 ∨ 31 < 31) ∧ (63 < 63 ∨ 31 < 32) ∧ 4095 ≤ 4095 ∧ 4095 < 4096 := by decide

theorem witness_KeySetAndDrawAckWriteOnlyTheirs : State.running { State.reset with drawPending := true } := rfl

theorem witness_OnlyResetClearsTheLatch :
    ¬(latched State.reset).running ∧ ∃ t, deliver (.reset []) (latched State.reset) = .next t ∧ t.running :=
  ⟨nofun, _, rfl, rfl⟩

theorem witness_FlagRegisterWriters :
    ∃ t, exec (.shl 1 0) (regs [(1, 0x80)]) = .next t ∧ t.getV 0xF ≠ (regs [(1, 0x80)]).getV 0xF :=
  ⟨_, rfl, by decide⟩

theorem witness_OnlyCallAndReturnMoveTheStack :
    ∃ t, exec (.call 0x300) State.reset = .next t ∧ (t.sp ≠ State.reset.sp ∨ t.stack ≠ State.reset.stack) :=
  ⟨_, rfl, .inl (by decide)⟩

theorem witness_OnlyIndexInstructionsWriteI :
    ∃ t, exec (.ldF 1) (regs [(1, 0xFF)]) = .next t ∧ t.i ≠ (regs [(1, 0xFF)]).i := ⟨_, rfl, by decide⟩

theorem witness_OnlyDisplayInstructionsWriteTheScreen :
    ∃ t, exec .cls State.reset = .next t ∧ t.drawPending ≠ State.reset.drawPending := ⟨_, rfl, by decide⟩

theorem witness_OnlyStoresWriteMemory :
    ∃ t, exec (.ldMemVx 0) { State.reset with i := 0x050 } = .next t ∧ t.mem ≠ State.reset.mem :=
  ⟨_, rfl, by decide⟩

theorem witness_TimerKeyAndSoundWriters :
    (∃ t, exec (.ldDTVx 1) (regs [(1, 1)]) = .next t ∧ t.dt ≠ State.reset.dt) ∧
    ∃ t, exec (.ldSTVx 1) (regs [(1, 1)]) = .next t ∧ t.st ≠ State.reset.st :=
  ⟨⟨_, rfl, by decide⟩, _, rfl, by decide⟩

/-- JP 0xFFE at 0xFFE, the last self-jump that fits. -/
theorem witness_SelfJumpIsFinal : State.ended (({ State.reset with pc := 0xFFE } : State).withFetchWord 16 0x1FFE) :=
  ⟨rfl, by decide, by decide⟩

theorem witness_ClockOrder :
    let s : PortState := ⟨State.reset, some [0x00, 0xE0]⟩
    pins.rst = false ∧ pins.stepEn = true ∧ pins.tickEn = true ∧ pins.drawAck = false ∧ s.released.fault = none ∧
    fetch s.released = .ok 0x00E0 := by
  decide

theorem witness_RomChannelIsReset :
    [(0x60 : Byte)] ≠ [] ∧ (List.replicate 3584 (0xFF : Byte)).length ≤ 3584 ∧
    (List.replicate 4096 (0xFF : Byte)) ≠ [] ∧ 3584 < (List.replicate 4096 (0xFF : Byte)).length ∧
    (List.replicate 4096 (0xFF : Byte)).length ≤ 4096 := by
  simp only [List.length_replicate, ne_eq, List.replicate_eq_nil_iff]; decide

end Sys2Proof.Tests
end

-- The RESET event: when it is taken, and what memory holds after it.
section
namespace Sys2Proof.Machine

/-- A RESET whose ROM fits is taken (R270). -/
theorem deliver_reset {s : State} {rom : List Byte} (h : rom.length ≤ Config.romMax) :
    deliver (.reset rom) s = .next (s.resetWith rom) :=
  if_pos h

/-- All of memory after a RESET: the ROM in its range (R70), the reset contents everywhere else (R42, R68). -/
theorem State.read_resetWith (s : State) {rom : List Byte} (h : rom.length ≤ Config.romMax) (a : Nat) :
    (s.resetWith rom).mem.read a =
      if Config.romBase ≤ a ∧ a < Config.romBase + rom.length then rom.getD (a - Config.romBase) 0
      else resetByte a := by
  have hfits : Config.romBase + rom.length ≤ Config.memSize := Nat.add_le_add_left h Config.romBase
  exact Memory.read_writeBytes Memory.wf_nil rom hfits a

/-- Byte k of a ROM that fits, read back after a RESET (R70). -/
theorem State.read_resetWith_rom (s : State) {rom : List Byte} (h : rom.length ≤ Config.romMax) {k : Nat}
    (hk : k < rom.length) : (s.resetWith rom).mem.read (Config.romBase + k) = rom[k] := by
  have hin : Config.romBase ≤ Config.romBase + k ∧ Config.romBase + k < Config.romBase + rom.length :=
    ⟨Nat.le_add_right .., Nat.add_lt_add_left hk _⟩
  rw [State.read_resetWith s h, if_pos hin, Nat.add_sub_cancel_left, List.getD_eq_getElem _ _ hk]

/-- Settles O45: a ROM of at most 3584 bytes ends inside memory, so the stores of RESET read back byte for byte. -/
theorem romIsPlaced : Obligations.RomIsPlaced := by
  intro s rom hlen
  exact ⟨s.resetWith rom, deliver_reset hlen, fun _ hk => State.read_resetWith_rom s hlen hk⟩

end Sys2Proof.Machine
end

-- The control-transfer instructions: what the decoder makes of their words, and the state a jump or a skip leaves.
section
namespace Sys2Proof

/-- A word 1nnn is JP nnn (R94, R124). -/
theorem decode_jp (nnn : Addr) : decode (0x1#4 ++ nnn) = .ok (.jp nnn) := by
  obtain ⟨hn1, hnnn⟩ := fieldsOf_nnn 0x1#4 nnn
  simp [decode, decodeFields, hn1, hnnn]

/-- A word Bnnn is JP V0, nnn (R94, R130). -/
theorem decode_jpV0 (nnn : Addr) : decode (0xB#4 ++ nnn) = .ok (.jpV0 nnn) := by
  obtain ⟨hn1, hnnn⟩ := fieldsOf_nnn 0xB#4 nnn
  simp [decode, decodeFields, hn1, hnnn]

/-- A word 3xkk is SE Vx, kk (R94, R126). -/
theorem decode_seImm (x : Reg) (kk : Byte) : decode (0x3#4 ++ x ++ kk) = .ok (.seImm x kk) := by
  obtain ⟨hn1, hx, hkk⟩ := fieldsOf_xkk 0x3#4 x kk
  simp [decode, decodeFields, hn1, hx, hkk]

/-- A word 4xkk is SNE Vx, kk (R94, R127). -/
theorem decode_sneImm (x : Reg) (kk : Byte) : decode (0x4#4 ++ x ++ kk) = .ok (.sneImm x kk) := by
  obtain ⟨hn1, hx, hkk⟩ := fieldsOf_xkk 0x4#4 x kk
  simp [decode, decodeFields, hn1, hx, hkk]

/-- The whole 5 group: SE Vx, Vy with the low nibble 0, UNKNOWN with any other (R95, R128). -/
theorem decode_five (x y : Reg) (n : Nibble) :
    decode (0x5#4 ++ x ++ y ++ n) = if n = 0 then .ok (.seReg x y) else .error .fiveGroup := by
  obtain ⟨hn1, hx, hy, hn⟩ := fieldsOf_xyn 0x5#4 x y n
  simp [decode, decodeFields, hn1, hx, hy, hn]

/-- The whole 9 group: SNE Vx, Vy with the low nibble 0, UNKNOWN with any other (R95, R129). -/
theorem decode_nine (x y : Reg) (n : Nibble) :
    decode (0x9#4 ++ x ++ y ++ n) = if n = 0 then .ok (.sneReg x y) else .error .nineGroup := by
  obtain ⟨hn1, hx, hy, hn⟩ := fieldsOf_xyn 0x9#4 x y n
  simp [decode, decodeFields, hn1, hx, hy, hn]

end Sys2Proof

namespace Sys2Proof.Machine

/-- The skip of R25 as one update of PC, under any proposition that the tested bit stands for. -/
theorem State.skipIf_eq (s : State) {c : Bool} {P : Prop} [Decidable P] (h : c = true ↔ P) :
    s.skipIf c = { s with pc := if P then s.pc + 4 else s.pc + 2 } := by
  have hpc : s.nextPc + 2 = s.pc + 4 := BitVec.add_assoc s.pc 2 2
  simp only [State.skipIf, h, hpc]
  rfl

theorem exec_jp (nnn : Addr) (s : State) : exec (.jp nnn) s = .next { s with pc := nnn.setWidth 16 } := rfl

theorem exec_jpV0 (nnn : Addr) (s : State) :
    exec (.jpV0 nnn) s = .next { s with pc := nnn.setWidth 16 + (s.getV 0).setWidth 16 } := rfl

theorem exec_seImm (x : Reg) (kk : Byte) (s : State) :
    exec (.seImm x kk) s = .next (s.skipIf (s.getV x == kk)) := rfl

theorem exec_sneImm (x : Reg) (kk : Byte) (s : State) :
    exec (.sneImm x kk) s = .next (s.skipIf (s.getV x != kk)) := rfl

theorem exec_seReg (x y : Reg) (s : State) :
    exec (.seReg x y) s = .next (s.skipIf (s.getV x == s.getV y)) := rfl

theorem exec_sneReg (x y : Reg) (s : State) :
    exec (.sneReg x y) s = .next (s.skipIf (s.getV x != s.getV y)) := rfl

/-- The target of JP V0, nnn (R130) is at most 0xFFF + 0xFF, so its sum in 16 bits does not wrap. -/
theorem toNat_indexedTarget (nnn : Addr) (b : Byte) :
    (nnn.setWidth 16 + b.setWidth 16 : Word).toNat = nnn.toNat + b.toNat := by
  have hnnn : (nnn.setWidth 16 : Word).toNat = nnn.toNat := BitVec.toNat_setWidth_of_le (by decide)
  have hb : (b.setWidth 16 : Word).toNat = b.toNat := BitVec.toNat_setWidth_of_le (by decide)
  have hfits : nnn.toNat + b.toNat < 2 ^ 16 := by
    have hnnnLt := nnn.isLt
    have hbLt := b.isLt
    omega
  rw [BitVec.toNat_add, hnnn, hb, Nat.mod_eq_of_lt hfits]

/-- Settles O26: the field nnn, widened to 16 bits, is the new PC. -/
theorem jumpResult : Obligations.JumpResult := by
  intro nnn s
  exact ⟨decode_jp nnn, _, BitVec.toNat_setWidth_of_le (by decide), exec_jp nnn s⟩

/-- Settles O27: nnn and V0 together stay below 2 ^ 16, so the sum in PC is the sum of their values. -/
theorem indexedJumpResult : Obligations.IndexedJumpResult := by
  intro nnn s
  exact ⟨decode_jpV0 nnn, _, toNat_indexedTarget nnn (s.getV 0), exec_jpV0 nnn s⟩

/-- Settles O31: the four instructions are one skip under four conditions, and the low nibble splits the 5 and 9
groups. -/
theorem skipResults : Obligations.SkipResults := by
  intro x y kk s
  refine ⟨decode_seImm x kk, decode_sneImm x kk, ?seRegWord, ?sneRegWord, ?unknownWords, ?seImm, ?sneImm,
    ?seReg, ?sneReg⟩
  case seRegWord => exact (decode_five x y 0).trans (if_pos rfl)
  case sneRegWord => exact (decode_nine x y 0).trans (if_pos rfl)
  case unknownWords =>
    intro n hn
    exact ⟨(decode_five x y n).trans (if_neg hn), (decode_nine x y n).trans (if_neg hn)⟩
  case seImm => rw [exec_seImm, State.skipIf_eq s beq_iff_eq]
  case sneImm => rw [exec_sneImm, State.skipIf_eq s bne_iff_ne]
  case seReg => rw [exec_seReg, State.skipIf_eq s beq_iff_eq]
  case sneReg => rw [exec_sneReg, State.skipIf_eq s bne_iff_ne]

end Sys2Proof.Machine
end

-- Register loads, logic and addition: what the decoder makes of their words, and the one write each of them is.
section
namespace Sys2Proof

/-- A word 6xkk is LD Vx, kk (R94, R141). -/
theorem decode_ldImm (x : Reg) (kk : Byte) : decode (0x6#4 ++ x ++ kk) = .ok (.ldImm x kk) := by
  obtain ⟨hn1, hx, hkk⟩ := fieldsOf_xkk 0x6#4 x kk
  simp [decode, decodeFields, hn1, hx, hkk]

/-- A word 7xkk is ADD Vx, kk (R94, R146). -/
theorem decode_addImm (x : Reg) (kk : Byte) : decode (0x7#4 ++ x ++ kk) = .ok (.addImm x kk) := by
  obtain ⟨hn1, hx, hkk⟩ := fieldsOf_xkk 0x7#4 x kk
  simp [decode, decodeFields, hn1, hx, hkk]

/-- The whole 8 group goes to its own decoder (R95). At a literal low nibble the right side computes, so each
instruction of the group has its word by this lemma alone. -/
theorem decode_eight (x y n : Nibble) :
    decode (0x8#4 ++ x ++ y ++ n) = decodeEight ⟨0x8, x, y, n, y ++ n, x ++ y ++ n⟩ := by
  obtain ⟨hn1, hx, hy, hn⟩ := fieldsOf_xyn 0x8#4 x y n
  simp [decode, decodeFields, decodeEight, hn1, hx, hy, hn]

end Sys2Proof

namespace Sys2Proof.Machine

theorem exec_ldImm (x : Reg) (kk : Byte) (s : State) : exec (.ldImm x kk) s = .next (s.setV x kk).advance := rfl

theorem exec_ldReg (x y : Reg) (s : State) : exec (.ldReg x y) s = .next (s.setV x (s.getV y)).advance := rfl

theorem exec_orReg (x y : Reg) (s : State) :
    exec (.orReg x y) s = .next (s.setV x (s.getV x ||| s.getV y)).advance := rfl

theorem exec_andReg (x y : Reg) (s : State) :
    exec (.andReg x y) s = .next (s.setV x (s.getV x &&& s.getV y)).advance := rfl

theorem exec_xorReg (x y : Reg) (s : State) :
    exec (.xorReg x y) s = .next (s.setV x (s.getV x ^^^ s.getV y)).advance := rfl

theorem exec_addImm (x : Reg) (kk : Byte) (s : State) :
    exec (.addImm x kk) s = .next (s.setV x (s.getV x + kk)).advance := rfl

theorem exec_addReg (x y : Reg) (s : State) :
    exec (.addReg x y) s =
      .next (s.setFlagThenV x (carryOf (s.getV x) (s.getV y)) (s.getV x + s.getV y)).advance := rfl

/-- A register write and the default next_pc (R120) change V[x] and PC only. -/
theorem writesRegisters_setV (s : State) (x : Reg) (b : Byte) :
    WritesRegisters s (s.setV x b).advance (s.withV x b) :=
  ⟨State.getV_setV s x b, rfl, rfl, fun _ => rfl⟩

/-- The flag, the result over it and the default next_pc (R120, R140) change VF, V[x] and PC only, under any
proposition that the flag stands for. -/
theorem writesRegisters_setFlagThenV (s : State) (x : Reg) {c : Bool} {P : Prop} [Decidable P] (h : c = true ↔ P)
    (b : Byte) : WritesRegisters s (s.setFlagThenV x c b).advance (s.withFlagV x P b) := by
  refine ⟨fun r => ?_, rfl, rfl, fun _ => rfl⟩
  simp only [State.advance_getV, State.getV_setFlagThenV, State.withFlagV, flagByte, h]

/-- The carry of R147 as a comparison. -/
theorem carryOf_iff (a b : Byte) : carryOf a b = true ↔ a.toNat + b.toNat > 255 := decide_eq_true_iff

/-- The sum of R146 and R147, taken modulo 256 in the naturals, is the 8-bit sum. -/
theorem ofNat_sum_mod (a b : Byte) : BitVec.ofNat 8 ((a.toNat + b.toNat) % 256) = a + b :=
  BitVec.eq_of_toNat_eq (by simp)

/-- Settles O22: ADD Vx, Vy is one flag-then-result write, the flag being the carry and the result the 8-bit sum. -/
theorem addRegisterResult : Obligations.AddRegisterResult := by
  intro x y s
  refine ⟨decode_eight x y 0x4, _, exec_addReg x y s, ?_⟩
  rw [ofNat_sum_mod]
  exact writesRegisters_setFlagThenV s x (carryOf_iff (s.getV x) (s.getV y)) (s.getV x + s.getV y)

/-- Settles O20: each of the five instructions is one register write, VF being written only as V[x]. -/
theorem loadAndLogicResults : Obligations.LoadAndLogicResults := by
  intro x y kk s
  exact ⟨decode_ldImm x kk, decode_eight x y 0x0, decode_eight x y 0x1, decode_eight x y 0x2, decode_eight x y 0x3,
    ⟨_, exec_ldImm x kk s, writesRegisters_setV s x kk⟩,
    ⟨_, exec_ldReg x y s, writesRegisters_setV s x (s.getV y)⟩,
    ⟨_, exec_orReg x y s, writesRegisters_setV s x (s.getV x ||| s.getV y)⟩,
    ⟨_, exec_andReg x y s, writesRegisters_setV s x (s.getV x &&& s.getV y)⟩,
    ⟨_, exec_xorReg x y s, writesRegisters_setV s x (s.getV x ^^^ s.getV y)⟩⟩

/-- Settles O21: ADD Vx, kk is one register write of the 8-bit sum; no flag is written. -/
theorem addImmediateResult : Obligations.AddImmediateResult := by
  intro x kk s
  refine ⟨decode_addImm x kk, _, exec_addImm x kk s, ?_⟩
  rw [ofNat_sum_mod]
  exact writesRegisters_setV s x (s.getV x + kk)

end Sys2Proof.Machine
end

-- Index arithmetic: what the decoder makes of the F group's words, and the address that ADD I and LD F put in I.
section
namespace Sys2Proof

/-- The whole F group goes to its own decoder (R95). At a literal low byte the right side computes, so each
instruction of the group has its word by this lemma alone. -/
theorem decode_fGroup (x : Nibble) (kk : Byte) :
    decode (0xF#4 ++ x ++ kk) =
      decodeF ⟨0xF, x, kk.extractLsb' 4 4, kk.extractLsb' 0 4, kk, x ++ kk⟩ := by
  obtain ⟨hn1, hx, hkk⟩ := fieldsOf_xkk 0xF#4 x kk
  simp [decode, decodeFields, decodeF, hn1, hx, hkk]

end Sys2Proof

namespace Sys2Proof.Machine

/-- A write of I and the default next_pc (R120) change I and PC only. -/
theorem State.advance_setI (s : State) (w : Word) : (s.setI w).advance = { s with i := w, pc := s.pc + 2 } := rfl

theorem exec_addI (x : Reg) (s : State) :
    exec (.addI x) s = .next (s.setI (s.i + (s.getV x).setWidth 16)).advance := rfl

theorem exec_ldF (x : Reg) (s : State) :
    exec (.ldF x) s =
      .next (s.setI (BitVec.ofNat 16 (Config.fontBase + Config.glyphBytes * (s.getV x).toNat))).advance := rfl

/-- The sum of R171 is taken modulo 65536: V[x] enters it unsigned and whole. -/
theorem toNat_addIndex (a : Word) (b : Byte) :
    (a + b.setWidth 16 : Word).toNat = (a.toNat + b.toNat) % 65536 := by
  have hb : (b.setWidth 16 : Word).toNat = b.toNat := BitVec.toNat_setWidth_of_le (by decide)
  rw [BitVec.toNat_add, hb]

/-- The font address of R172 is at most 0x54B, even for a V[x] above 15, so it does not wrap. -/
theorem toNat_fontAddress (b : Byte) :
    (BitVec.ofNat 16 (Config.fontBase + Config.glyphBytes * b.toNat)).toNat = 0x050 + 5 * b.toNat := by
  have hfits : 0x050 + 5 * b.toNat < 2 ^ 16 := by
    have hb := b.isLt
    omega
  exact (BitVec.toNat_ofNat _ 16).trans (Nat.mod_eq_of_lt hfits)

/-- Settles O33: each instruction is one write of I, of a sum that wraps (ADD I) or of an address that cannot
(LD F). -/
theorem addIndexAndFontResults : Obligations.AddIndexAndFontResults := by
  intro x s
  refine ⟨decode_fGroup x 0x1E, decode_fGroup x 0x29, ?addI, ?ldF⟩
  case addI => exact ⟨_, toNat_addIndex s.i (s.getV x), by rw [exec_addI, State.advance_setI]⟩
  case ldF => exact ⟨_, toNat_fontAddress (s.getV x), by rw [exec_ldF, State.advance_setI]⟩

end Sys2Proof.Machine
end

-- Display: the word of CLS and the one screen it shows.
section
namespace Sys2Proof

/-- The word 00E0 is CLS, whole and without operands (R94, R190). -/
theorem decode_cls : decode 0x00E0 = .ok .cls := rfl

end Sys2Proof

namespace Sys2Proof.Machine

theorem exec_cls (s : State) : exec .cls s = .next (s.showScreen Screen.clear).advance := rfl

/-- A shown screen and the default next_pc (R120) change the framebuffer, draw_pending and PC only. -/
theorem State.advance_showScreen (s : State) (f : Screen) :
    (s.showScreen f).advance = { s with fb := f, drawPending := true, pc := s.pc + 2 } := rfl

/-- Settles O37: CLS shows the clear screen, every pixel of which reads off; showing it sets draw_pending whatever
the old screen was. -/
theorem clearScreenResult : Obligations.ClearScreenResult := by
  intro s
  refine ⟨decode_cls, _, exec_cls s, ?_⟩
  rw [State.advance_showScreen]
  exact ⟨fun x y _ _ => Screen.get_clear x y, rfl, rfl, rfl, fun _ => rfl⟩

end Sys2Proof.Machine
end

-- Timers: the three copies between V[x] and DT or ST, and the one field besides PC that each of them writes.
section
namespace Sys2Proof.Machine

theorem exec_ldVxDT (x : Reg) (s : State) : exec (.ldVxDT x) s = .next (s.setV x s.dt).advance := rfl

theorem exec_ldDTVx (x : Reg) (s : State) : exec (.ldDTVx x) s = .next (s.setDT (s.getV x)).advance := rfl

theorem exec_ldSTVx (x : Reg) (s : State) : exec (.ldSTVx x) s = .next (s.setST (s.getV x)).advance := rfl

/-- A write of DT and the default next_pc (R120) change DT and PC only. -/
theorem State.advance_setDT (s : State) (b : Byte) : (s.setDT b).advance = { s with dt := b, pc := s.pc + 2 } := rfl

/-- A write of ST and the default next_pc (R120) change ST and PC only; sound_active waits for the next TICK (R215). -/
theorem State.advance_setST (s : State) (b : Byte) : (s.setST b).advance = { s with st := b, pc := s.pc + 2 } := rfl

/-- Settles O42: reading DT is one register write, and writing DT or ST is one write of that timer. -/
theorem timerMoveResults : Obligations.TimerMoveResults := by
  intro x s
  refine ⟨decode_fGroup x 0x07, decode_fGroup x 0x15, decode_fGroup x 0x18, ?ldVxDT, ?ldDTVx, ?ldSTVx⟩
  case ldVxDT => exact ⟨_, exec_ldVxDT x s, writesRegisters_setV s x s.dt⟩
  case ldDTVx => rw [exec_ldDTVx, State.advance_setDT]
  case ldSTVx => rw [exec_ldSTVx, State.advance_setST]

end Sys2Proof.Machine
end

-- The decoder and the encoder are inverse to each other, and the opcode map says which words they speak of.
section
namespace Sys2Proof

/-- A word 2nnn is CALL nnn (R94, R125). -/
theorem decode_call (nnn : Addr) : decode (0x2#4 ++ nnn) = .ok (.call nnn) := by
  obtain ⟨hn1, hnnn⟩ := fieldsOf_nnn 0x2#4 nnn
  simp [decode, decodeFields, hn1, hnnn]

/-- A word Annn is LD I, nnn (R94, R170). -/
theorem decode_ldI (nnn : Addr) : decode (0xA#4 ++ nnn) = .ok (.ldI nnn) := by
  obtain ⟨hn1, hnnn⟩ := fieldsOf_nnn 0xA#4 nnn
  simp [decode, decodeFields, hn1, hnnn]

/-- A word Cxkk is RND Vx, kk (R94, R152). -/
theorem decode_rnd (x : Reg) (kk : Byte) : decode (0xC#4 ++ x ++ kk) = .ok (.rnd x kk) := by
  obtain ⟨hn1, hx, hkk⟩ := fieldsOf_xkk 0xC#4 x kk
  simp [decode, decodeFields, hn1, hx, hkk]

/-- A word Dxyn is DRW Vx, Vy, n (R94, R191). -/
theorem decode_drw (x y : Reg) (n : Nibble) : decode (0xD#4 ++ x ++ y ++ n) = .ok (.drw x y n) := by
  obtain ⟨hn1, hx, hy, hn⟩ := fieldsOf_xyn 0xD#4 x y n
  simp [decode, decodeFields, hn1, hx, hy, hn]

/-- The whole E group goes to its own decoder (R95); at a literal low byte the right side computes. -/
theorem decode_eGroup (x : Nibble) (kk : Byte) :
    decode (0xE#4 ++ x ++ kk) =
      decodeE ⟨0xE, x, kk.extractLsb' 4 4, kk.extractLsb' 0 4, kk, x ++ kk⟩ := by
  obtain ⟨hn1, hx, hkk⟩ := fieldsOf_xkk 0xE#4 x kk
  simp [decode, decodeFields, decodeE, hn1, hx, hkk]

/-- The word 00EE is RET (R94, R123). -/
theorem decode_ret : decode 0x00EE = .ok .ret := rfl

/-- Settles O2: each instruction's word is read back by the lemma of its group. -/
theorem decodeOfEncode : Obligations.DecodeOfEncode := by
  intro i
  cases i with
  | cls => exact decode_cls
  | ret => exact decode_ret
  | jp nnn => exact decode_jp nnn
  | call nnn => exact decode_call nnn
  | seImm x kk => exact decode_seImm x kk
  | sneImm x kk => exact decode_sneImm x kk
  | seReg x y => exact decode_five x y 0x0
  | ldImm x kk => exact decode_ldImm x kk
  | addImm x kk => exact decode_addImm x kk
  | ldReg x y => exact decode_eight x y 0x0
  | orReg x y => exact decode_eight x y 0x1
  | andReg x y => exact decode_eight x y 0x2
  | xorReg x y => exact decode_eight x y 0x3
  | addReg x y => exact decode_eight x y 0x4
  | subReg x y => exact decode_eight x y 0x5
  | shr x y => exact decode_eight x y 0x6
  | subnReg x y => exact decode_eight x y 0x7
  | shl x y => exact decode_eight x y 0xE
  | sneReg x y => exact decode_nine x y 0x0
  | ldI nnn => exact decode_ldI nnn
  | jpV0 nnn => exact decode_jpV0 nnn
  | rnd x kk => exact decode_rnd x kk
  | drw x y n => exact decode_drw x y n
  | skp x => exact decode_eGroup x 0x9E
  | sknp x => exact decode_eGroup x 0xA1
  | ldVxDT x => exact decode_fGroup x 0x07
  | ldVxK x => exact decode_fGroup x 0x0A
  | ldDTVx x => exact decode_fGroup x 0x15
  | ldSTVx x => exact decode_fGroup x 0x18
  | addI x => exact decode_fGroup x 0x1E
  | ldF x => exact decode_fGroup x 0x29
  | ldB x => exact decode_fGroup x 0x33
  | ldMemVx x => exact decode_fGroup x 0x55
  | ldVxMem x => exact decode_fGroup x 0x65

/-- A nibble by its value, as the decoder's dispatch tests it. -/
theorem nibble_eq_ofNat {n : Nibble} {k : Nat} (h : n.toNat = k) : n = BitVec.ofNat 4 k := by
  rw [← h, BitVec.ofNat_toNat, BitVec.setWidth_eq]

/-- What the 0 group's decoder accepts is the word its fields were cut from. -/
theorem encode_of_decodeZero {f : Fields} {i : Instr} (h : decodeZero f = .ok i) : encode i = 0x0#4 ++ f.nnn := by
  unfold decodeZero at h
  repeat' split at h
  all_goals cases h
  all_goals rename_i hnnn; rw [hnnn]; rfl

/-- What the 8 group's decoder accepts is the word its fields were cut from. -/
theorem encode_of_decodeEight {f : Fields} {i : Instr} (h : decodeEight f = .ok i) :
    encode i = 0x8#4 ++ f.x ++ f.y ++ f.n := by
  unfold decodeEight at h
  split at h <;> cases h
  all_goals rename_i hn; rw [nibble_eq_ofNat hn]; rfl

/-- What the E group's decoder accepts is the word its fields were cut from. -/
theorem encode_of_decodeE {f : Fields} {i : Instr} (h : decodeE f = .ok i) : encode i = 0xE#4 ++ f.x ++ f.kk := by
  unfold decodeE at h
  repeat' split at h
  all_goals cases h
  all_goals rename_i hkk; rw [hkk]; rfl

/-- What the F group's decoder accepts is the word its fields were cut from. -/
theorem encode_of_decodeF {f : Fields} {i : Instr} (h : decodeF f = .ok i) : encode i = 0xF#4 ++ f.x ++ f.kk := by
  unfold decodeF at h
  repeat' split at h
  all_goals cases h
  all_goals rename_i hkk; rw [hkk]; rfl

/-- Settles O3: by major opcode, the operands and fixed nibbles of the instruction that is read are the fields that the
word was cut into, and side by side these are the word again. -/
theorem encodeOfDecode : Obligations.EncodeOfDecode := by
  intro w i h
  have hnnn := word_eq_nnn w
  have hxkk := word_eq_xkk w
  have hxyn := word_eq_xyn w
  unfold decode decodeFields at h
  split at h
  case h_16 =>
    -- the F group is the decoder's last case
    have hn1 : (fieldsOf w).n1.toNat = 15 := by
      have hlt := (fieldsOf w).n1.isLt
      simp only [imp_false] at *
      omega
    rw [nibble_eq_ofNat hn1] at hxkk
    exact (encode_of_decodeF h).trans hxkk
  all_goals rename_i hn1
  all_goals rw [nibble_eq_ofNat hn1] at hnnn hxkk hxyn
  case h_1 => exact (encode_of_decodeZero h).trans hnnn
  case h_9 => exact (encode_of_decodeEight h).trans hxyn
  case h_15 => exact (encode_of_decodeE h).trans hxkk
  case h_6 | h_10 =>
    -- the 5 and 9 groups, whose low nibble is fixed
    split at h <;> cases h
    rename_i hn
    rw [hn] at hxyn
    exact hxyn
  -- the groups of one row, by the shape of its word
  all_goals cases h
  case h_2 | h_3 | h_11 | h_12 => exact hnnn
  case h_4 | h_5 | h_7 | h_8 | h_13 => exact hxkk
  case h_14 => exact hxyn

/-- The 0 group rejects every word but its two fixed ones (R97). -/
theorem decodeZero_error {f : Fields} {g : Reject} :
    decodeZero f = .error g ↔ g = .zeroGroup ∧ f.nnn ≠ 0x0E0 ∧ f.nnn ≠ 0x0EE := by
  unfold decodeZero
  split
  · simp_all
  · split <;> simp_all [eq_comm]

/-- The 8 group rejects the low nibbles that no row of it has (R97). -/
theorem decodeEight_error {f : Fields} {g : Reject} :
    decodeEight f = .error g ↔ g = .eightGroup ∧ f.n ∈ [8, 9, 0xA, 0xB, 0xC, 0xD, 0xF] := by
  unfold decodeEight
  split
  case h_10 =>
    have hlt := f.n.isLt
    simp only [imp_false] at *
    simp [← BitVec.toNat_inj, eq_comm]
    omega
  all_goals (rename_i hn; rw [nibble_eq_ofNat hn]; simp)

/-- The E group rejects every low byte but its two (R97). -/
theorem decodeE_error {f : Fields} {g : Reject} :
    decodeE f = .error g ↔ g = .eGroup ∧ f.kk ∉ [0x9E, 0xA1] := by
  unfold decodeE
  repeat' split
  all_goals simp_all [eq_comm]

/-- The F group rejects every low byte but its nine (R97). -/
theorem decodeF_error {f : Fields} {g : Reject} :
    decodeF f = .error g ↔ g = .fGroup ∧ f.kk ∉ [0x07, 0x0A, 0x15, 0x18, 0x1E, 0x29, 0x33, 0x55, 0x65] := by
  unfold decodeF
  repeat' split
  all_goals simp_all [eq_comm]

/-- Where the decoder's rejections come from, by major opcode (R97). -/
theorem decodeFields_error {f : Fields} {g : Reject} :
    decodeFields f = .error g ↔
      (f.n1 = 0 ∧ decodeZero f = .error g) ∨ (f.n1 = 5 ∧ f.n ≠ 0 ∧ g = .fiveGroup) ∨
      (f.n1 = 8 ∧ decodeEight f = .error g) ∨ (f.n1 = 9 ∧ f.n ≠ 0 ∧ g = .nineGroup) ∨
      (f.n1 = 0xE ∧ decodeE f = .error g) ∨ (f.n1 = 0xF ∧ decodeF f = .error g) := by
  unfold decodeFields
  split
  case h_16 =>
    have hn1 : f.n1.toNat = 15 := by
      have hlt := f.n1.isLt
      simp only [imp_false] at *
      omega
    simp [nibble_eq_ofNat hn1]
  all_goals rename_i hn1; simp [nibble_eq_ofNat hn1]
  all_goals by_cases hn : f.n = 0#4 <;> simp [hn, eq_comm (a := g)]

/-- In the 0 group the other twelve bits are the whole word. -/
theorem word_eq_of_zeroGroup {w : Word} (h : (fieldsOf w).n1 = 0) (nnn : Addr) :
    w = 0x0#4 ++ nnn ↔ (fieldsOf w).nnn = nnn := by
  obtain ⟨hn1, hnnn⟩ := fieldsOf_nnn 0x0#4 nnn
  refine ⟨fun hw => by rw [hw, hnnn], fun hw => ?_⟩
  rw [← word_eq_nnn w, h, hw]
  rfl

/-- Settles O5: the decoder's errors, group by group; in the 0 group the two fixed words are told by their low twelve
bits. -/
theorem unknownGroupsAreExact : Obligations.UnknownGroupsAreExact := by
  intro w
  simp only [decode, decodeFields_error, decodeZero_error, decodeEight_error, decodeE_error, decodeF_error, ne_eq]
  refine ⟨?zeroGroup, ?_, ?_, ?_, ?_, ?_, ?_⟩
  case zeroGroup =>
    simp only [reduceCtorEq, false_and, and_false, or_false, true_and]
    refine and_congr_right fun hn1 => ?_
    exact and_congr (not_congr (word_eq_of_zeroGroup hn1 0x0E0).symm) (not_congr (word_eq_of_zeroGroup hn1 0x0EE).symm)
  all_goals simp

/-- The word of every instruction is of the instruction's own row (R94), by the shape of the word (R92). -/
theorem matchesWord_encode (i : Instr) : (rowOf i).matchesWord (encode i) = true := by
  refine beq_iff_eq.mpr ?_
  cases i with
  | cls | ret => rfl
  | jp nnn | call nnn | ldI nnn | jpV0 nnn => exact Laws.MatchesItsRow.mask_nnn _ nnn
  | seImm x kk | sneImm x kk | ldImm x kk | addImm x kk | rnd x kk => exact Laws.MatchesItsRow.mask_xkk _ x kk
  | drw x y n => exact Laws.MatchesItsRow.mask_xyn _ x y n
  | skp x | sknp x | ldVxDT x | ldVxK x | ldDTVx x | ldSTVx x | addI x | ldF x | ldB x | ldMemVx x | ldVxMem x =>
    exact Laws.MatchesItsRow.mask_x _ x _
  | seReg x y | sneReg x y | ldReg x y | orReg x y | andReg x y | xorReg x y | addReg x y | subReg x y | shr x y
  | subnReg x y | shl x y => exact Laws.MatchesItsRow.mask_xy _ x y _

/-- Every instruction's row is in the opcode map, whatever its operands (R94). -/
theorem rowOf_mem_opcodeRows (i : Instr) : rowOf i ∈ opcodeRows := by
  cases i <;> simp [opcodeRows, oneOfEachRow, rowOf]

/-- Two rows that differ fix some bit differently under both masks, so no word is of both (R95). -/
theorem opcodeRows_disjoint :
    ∀ r ∈ opcodeRows, ∀ q ∈ opcodeRows, r.bits &&& q.mask = q.bits &&& r.mask → r = q := by
  decide

/-- No word is of two rows. -/
theorem row_unique {w : Word} {r q : OpcodeRow} (hr : r ∈ opcodeRows) (hq : q ∈ opcodeRows)
    (hrw : r.matchesWord w = true) (hqw : q.matchesWord w = true) : r = q := by
  refine opcodeRows_disjoint r hr q hq ?_
  rw [← beq_iff_eq.mp hrw, ← beq_iff_eq.mp hqw, BitVec.and_assoc, BitVec.and_assoc, BitVec.and_comm q.mask]

/-- Every row fixes the field its group's decoder tests (R95). -/
theorem opcodeRows_fix_tested_fields :
    ∀ r ∈ opcodeRows, (fieldsOf r.mask).n1 = 0xF ∧ ((fieldsOf r.bits).n1 = 0 → (fieldsOf r.mask).nnn = 0xFFF) ∧
      ((fieldsOf r.bits).n1 ∈ [5, 8, 9] → (fieldsOf r.mask).n = 0xF) ∧
      ((fieldsOf r.bits).n1 ∈ [0xE, 0xF] → (fieldsOf r.mask).kk = 0xFF) := by
  decide

/-- The fixed bits of every row, with its operand fields zero, are an instruction (R94). -/
theorem opcodeRows_decode : ∀ r ∈ opcodeRows, ∃ i ∈ oneOfEachRow, decode r.bits = .ok i := by
  decide

/-- A word and a row's fixed bits agree in a field that lies under the row's mask. -/
theorem field_eq_of_mask {n k : Nat} {w m b : Word} (h : w &&& m = b) (hm : m.extractLsb' k n = BitVec.allOnes n) :
    w.extractLsb' k n = b.extractLsb' k n := by
  rw [← h, BitVec.extractLsb'_and, hm, BitVec.and_allOnes]

/-- A word of a row agrees with the row's fixed bits in every field that the decoder tests, so what rejects the one
rejects the other (R95). -/
theorem decode_error_of_row {w : Word} {r : OpcodeRow} (hr : r ∈ opcodeRows) (hrw : r.matchesWord w = true)
    {g : Reject} (hd : decode w = .error g) : decode r.bits = .error g := by
  have hw : w &&& r.mask = r.bits := beq_iff_eq.mp hrw
  obtain ⟨hmask1, hmaskNnn, hmaskN, hmaskKk⟩ := opcodeRows_fix_tested_fields r hr
  have hn1 : (fieldsOf w).n1 = (fieldsOf r.bits).n1 := field_eq_of_mask hw hmask1
  have hnnn (h : (fieldsOf r.bits).n1 = 0) : (fieldsOf w).nnn = (fieldsOf r.bits).nnn :=
    field_eq_of_mask hw (hmaskNnn h)
  have hn (h : (fieldsOf r.bits).n1 ∈ [5, 8, 9]) : (fieldsOf w).n = (fieldsOf r.bits).n :=
    field_eq_of_mask hw (hmaskN h)
  have hkk (h : (fieldsOf r.bits).n1 ∈ [0xE, 0xF]) : (fieldsOf w).kk = (fieldsOf r.bits).kk :=
    field_eq_of_mask hw (hmaskKk h)
  simp only [decode, decodeFields_error, decodeZero_error, decodeEight_error, decodeE_error, decodeF_error,
    hn1] at hd ⊢
  rcases hd with ⟨h, hd⟩ | ⟨h, hd⟩ | ⟨h, hd⟩ | ⟨h, hd⟩ | ⟨h, hd⟩ | ⟨h, hd⟩
  · exact .inl ⟨h, hnnn h ▸ hd⟩
  · exact .inr (.inl ⟨h, hn (by simp [h]) ▸ hd⟩)
  · exact .inr (.inr (.inl ⟨h, hn (by simp [h]) ▸ hd⟩))
  · exact .inr (.inr (.inr (.inl ⟨h, hn (by simp [h]) ▸ hd⟩)))
  · exact .inr (.inr (.inr (.inr (.inl ⟨h, hkk (by simp [h]) ▸ hd⟩))))
  · exact .inr (.inr (.inr (.inr (.inr ⟨h, hkk (by simp [h]) ▸ hd⟩))))

/-- A word of a row is no UNKNOWN word (R95). -/
theorem decode_ok_of_row {w : Word} {r : OpcodeRow} (hr : r ∈ opcodeRows) (hrw : r.matchesWord w = true) :
    ∃ i, decode w = .ok i := by
  cases hd : decode w with
  | ok i => exact ⟨i, rfl⟩
  | error g =>
    obtain ⟨i, -, hi⟩ := opcodeRows_decode r hr
    simp [decode_error_of_row hr hrw hd] at hi

/-- Settles O4: a decoded word is the word of its instruction, which is of that instruction's row; a word of a row is
no UNKNOWN word; and two rows never share a word. -/
theorem decodeFollowsOpcodeMap : Obligations.DecodeFollowsOpcodeMap := by
  have hrow (w : Word) (i : Instr) (h : decode w = .ok i) : (rowOf i).matchesWord w = true :=
    encodeOfDecode w i h ▸ matchesWord_encode i
  exact ⟨fun w => ⟨fun ⟨i, h⟩ => ⟨rowOf i, rowOf_mem_opcodeRows i, hrow w i h⟩,
      fun ⟨_, hr, hrw⟩ => decode_ok_of_row hr hrw⟩,
    hrow, fun _ _ hr _ hq => row_unique hr hq, rfl⟩

/-- Settles O1: each example is read by the decoder and written by the encoder as R102 has it. -/
theorem writtenWordsDecode : Obligations.WrittenWordsDecode := by
  unfold Obligations.WrittenWordsDecode
  decide

end Sys2Proof
end

-- The STEP event path by path, and every instruction in one form: the fault it raises, or else its effect.
section
namespace Sys2Proof.Machine

/-- A machine with a latched fault stands still (R121). -/
theorem step_latched {s : State} {r : FaultRecord} (h : s.fault = some r) : step s = .next s := by
  simp [step, stepEvent, h]

/-- A fetch out of range is the step's fault (R122). -/
theorem step_fetch_error {s : State} {c : Fault} (hrun : s.running) (h : fetch s = .error c) :
    step s = .next (s.faulted c none) := by
  simp [step, stepEvent, show s.fault = none from hrun, h, takeFault, State.faulted]

/-- A fetched word is executed (R120). -/
theorem step_fetched {s : State} {op : Word} (hrun : s.running) (h : fetch s = .ok op) : step s = execWord op s := by
  simp [step, stepEvent, show s.fault = none from hrun, h]

/-- A fetched instruction is the whole step (R120). -/
theorem step_instr {s : State} {op : Word} {i : Instr} (hrun : s.running) (h : fetch s = .ok op)
    (hd : decode op = .ok i) : step s = exec i s := by
  rw [step_fetched hrun h]; simp [execWord, hd]

/-- A fetched UNKNOWN word advances PC (R96). -/
theorem step_unknown {s : State} {op : Word} {g : Reject} (hrun : s.running) (h : fetch s = .ok op)
    (hd : decode op = .error g) : step s = .next s.advance := by
  rw [step_fetched hrun h]; simp [execWord, hd, execUnknown]

/-- The state a key-wait leaves (R212). -/
def State.keyWaited (s : State) (x : Reg) : State :=
  match selectKey s.pressedKeys s.keyDraws with
  | none => s
  | some k => (s.setV x (k.setWidth 8)).countKeyWait.advance

/-- The fault that an instruction raises in a state, if any (R231). -/
def faultOf (i : Instr) (s : State) : Option Fault :=
  match i with
  | .ret => if s.sp = 0 then some .stackUnderflow else none
  | .call _ => if s.sp = Config.stackDepth then some .stackOverflow else none
  | .drw _ _ n => s.drawFault n
  | .skp x | .sknp x => if 15 < (s.getV x).toNat then some (.keyRange (s.getV x)) else none
  | .ldB _ => s.rangeFault 2
  | .ldMemVx x | .ldVxMem x => s.rangeFault x.toNat
  | _ => none

/-- What an instruction that raises no fault leaves. The block load and the key-wait are written by the fields they
may change, so that every other field of any effect is that of s by computation. -/
def effect (i : Instr) (s : State) : State :=
  match i with
  | .cls => (s.showScreen Screen.clear).advance
  | .ret => s.pop.goto s.topOfStack
  | .jp nnn => s.goto (nnn.setWidth 16)
  | .call nnn => (s.push s.nextPc).goto (nnn.setWidth 16)
  | .seImm x kk => s.skipIf (s.getV x == kk)
  | .sneImm x kk => s.skipIf (s.getV x != kk)
  | .seReg x y => s.skipIf (s.getV x == s.getV y)
  | .ldImm x kk => (s.setV x kk).advance
  | .addImm x kk => (s.setV x (s.getV x + kk)).advance
  | .ldReg x y => (s.setV x (s.getV y)).advance
  | .orReg x y => (s.setV x (s.getV x ||| s.getV y)).advance
  | .andReg x y => (s.setV x (s.getV x &&& s.getV y)).advance
  | .xorReg x y => (s.setV x (s.getV x ^^^ s.getV y)).advance
  | .addReg x y => (s.setFlagThenV x (carryOf (s.getV x) (s.getV y)) (s.getV x + s.getV y)).advance
  | .subReg x y => (s.setFlagThenV x (noBorrowOf (s.getV x) (s.getV y)) (s.getV x - s.getV y)).advance
  | .shr x _ => (s.setFlagThenV x (lowBitOf (s.getV x)) (s.getV x >>> 1)).advance
  | .subnReg x y => (s.setFlagThenV x (noBorrowOf (s.getV y) (s.getV x)) (s.getV y - s.getV x)).advance
  | .shl x _ => (s.setFlagThenV x (highBitOf (s.getV x)) (s.getV x <<< 1)).advance
  | .sneReg x y => s.skipIf (s.getV x != s.getV y)
  | .ldI nnn => (s.setI (nnn.setWidth 16)).advance
  | .jpV0 nnn => s.goto (nnn.setWidth 16 + (s.getV 0).setWidth 16)
  | .rnd x kk => (s.setV x (Config.rand s.randDraws &&& kk)).countRand.advance
  | .drw x y n => ((s.setV vf (flagByte (s.drawn x y n).hit)).showScreen (s.drawn x y n).fb).advance
  | .skp x => s.skipIf (s.keyDown ((s.getV x).setWidth 4))
  | .sknp x => s.skipIf (!s.keyDown ((s.getV x).setWidth 4))
  | .ldVxDT x => (s.setV x s.dt).advance
  | .ldVxK x =>
    { s with v := (s.keyWaited x).v, pc := (s.keyWaited x).pc, keyDraws := (s.keyWaited x).keyDraws }
  | .ldDTVx x => (s.setDT (s.getV x)).advance
  | .ldSTVx x => (s.setST (s.getV x)).advance
  | .addI x => (s.setI (s.i + (s.getV x).setWidth 16)).advance
  | .ldF x => (s.setI (BitVec.ofNat 16 (Config.fontBase + Config.glyphBytes * (s.getV x).toNat))).advance
  | .ldB x => (s.setMem (s.mem.writeBytes (s.addr 0) (bcdDigits (s.getV x)))).advance
  | .ldMemVx x => (s.setMem (s.mem.writeBytes (s.addr 0) (s.blockOut x))).advance
  | .ldVxMem x => ({ s with v := (s.blockIn x).v } : State).advance

/-- A key-wait in its two outcomes (R212). -/
theorem exec_ldVxK (x : Reg) (s : State) : exec (.ldVxK x) s = .next (s.keyWaited x) := by
  show execLdVxK x s = _
  unfold execLdVxK State.keyWaited
  cases selectKey s.pressedKeys s.keyDraws <;> rfl

/-- A key-wait changes the registers, PC and the counter of key-waits only. -/
theorem State.keyWaited_only (s : State) (x : Reg) :
    s.keyWaited x =
      { s with v := (s.keyWaited x).v, pc := (s.keyWaited x).pc, keyDraws := (s.keyWaited x).keyDraws } := by
  unfold State.keyWaited
  cases selectKey s.pressedKeys s.keyDraws <;> rfl

/-- Every instruction is its check, if it has one, and then its effect (R231, R232). -/
theorem exec_eq (i : Instr) (s : State) :
    exec i s = (faultOf i s).elim (.next (effect i s)) fun c => .next (s.faulted c (some (encode i))) := by
  cases i with
  | ret | call nnn =>
    simp only [exec, execRet, execCall, faultOf]
    split <;> rfl
  | skp x | sknp x =>
    by_cases hx : 15 < (s.getV x).toNat <;>
      simp only [exec, execSkp, execSknp, State.keyIndexed, faultOf, hx, if_true, if_false] <;> rfl
  | drw x y n =>
    simp only [exec, execDrw, faultOf]
    cases s.drawFault n <;> rfl
  | ldB x =>
    simp only [exec, execLdB, faultOf]
    cases s.rangeFault 2 <;> rfl
  | ldMemVx x =>
    simp only [exec, execLdMemVx, faultOf]
    cases s.rangeFault x.toNat <;> rfl
  | ldVxMem x =>
    simp only [exec, execLdVxMem, faultOf]
    cases s.rangeFault x.toNat with
    | none => exact congrArg (fun t : State => Host.Outcome.next t.advance) (s.blockIn_only x)
    | some c => rfl
  | ldVxK x => exact (exec_ldVxK x s).trans (congrArg _ (s.keyWaited_only x))
  | _ => rfl

/-- An instruction that raises a fault only latches it, with its own word as the word recorded (R231, R232). -/
theorem exec_of_fault {i : Instr} {s : State} {c : Fault} (h : faultOf i s = some c) :
    exec i s = .next (s.faulted c (some (encode i))) := by
  rw [exec_eq, h]; rfl

/-- An instruction that raises no fault has its effect. -/
theorem exec_of_no_fault {i : Instr} {s : State} (h : faultOf i s = none) : exec i s = .next (effect i s) := by
  rw [exec_eq, h]; rfl

/-- Everything an instruction can do: raise its fault or have its effect. -/
theorem exec_cases {i : Instr} {s t : State} (h : exec i s = .next t) :
    (∃ c, faultOf i s = some c ∧ t = s.faulted c (some (encode i))) ∨ (faultOf i s = none ∧ t = effect i s) := by
  cases hf : faultOf i s with
  | none =>
    rw [exec_of_no_fault hf] at h
    cases h
    exact .inr ⟨rfl, rfl⟩
  | some c =>
    rw [exec_of_fault hf] at h
    cases h
    exact .inl ⟨c, rfl, rfl⟩

/-- Every instruction answers with a next state. -/
theorem exec_answers (i : Instr) (s : State) : ∃ t, exec i s = .next t := by
  cases hf : faultOf i s with
  | none => exact ⟨_, exec_of_no_fault hf⟩
  | some c => exact ⟨_, exec_of_fault hf⟩

/-- No effect sets the latch. -/
theorem effect_fault (i : Instr) (s : State) : (effect i s).fault = s.fault := by
  cases i <;> rfl

/-- What an instruction leaves running is its effect. -/
theorem effect_of_running {i : Instr} {s t : State} (h : exec i s = .next t) (hrun : t.running) :
    t = effect i s := by
  rcases exec_cases h with ⟨c, -, rfl⟩ | ⟨-, rfl⟩
  · cases hrun
  · rfl

/-- Settles O13: a latched machine, a fetch fault, an instruction and an UNKNOWN word each have their next state. -/
theorem stepAlwaysAnswers : Obligations.StepAlwaysAnswers := by
  intro s
  cases hl : s.fault with
  | some r => exact ⟨s, step_latched hl⟩
  | none =>
    cases hf : fetch s with
    | error c => exact ⟨_, step_fetch_error hl hf⟩
    | ok op =>
      cases hd : decode op with
      | error g => exact ⟨_, step_unknown hl hf hd⟩
      | ok i => exact (step_instr hl hf hd) ▸ exec_answers i s

/-- Settles O11: a step that latches a fault is a fetch fault or an instruction's fault, as no effect sets the latch. -/
theorem faultEntryWritesOnlyTheLatch : Obligations.FaultEntryWritesOnlyTheLatch := by
  intro s t hrun hstep hlatched
  rcases step_cases hstep with ⟨_, _, rfl⟩ | ⟨c, _, _, rfl⟩ | ⟨_, i, _, _, _, hexec⟩ | ⟨_, _, _, _, _, rfl⟩
  · exact absurd hrun hlatched
  · exact ⟨c, none, rfl⟩
  · rcases exec_cases hexec with ⟨c, -, rfl⟩ | ⟨-, rfl⟩
    · exact ⟨c, some (encode i), rfl⟩
    · exact absurd ((effect_fault i s).trans hrun) hlatched
  · exact absurd hrun hlatched

/-- A range fault's instruction range-checks up to I + k and records max(I, 4096) (R176). -/
theorem State.memRange_of_rangeFault {s : State} {k : Nat} {c : Fault} (h : s.rangeFault k = some c) :
    4095 < s.i.toNat + k ∧ ∃ a, c = .memRange a ∧ a.toNat = max s.i.toNat 4096 := by
  obtain ⟨hk, rfl⟩ := State.rangeFault_some.mp h
  exact ⟨hk, _, rfl, rangeAddress_toNat s.i⟩

/-- A draw's range fault comes from a sprite with rows (R191). -/
theorem State.drawFault_some {s : State} {n : Nibble} {c : Fault} :
    s.drawFault n = some c ↔ n ≠ 0 ∧ s.rangeFault (n.toNat - 1) = some c := by
  unfold State.drawFault
  split <;> simp_all

theorem State.drawFault_none {s : State} {n : Nibble} :
    s.drawFault n = none ↔ n = 0 ∨ s.i.toNat + (n.toNat - 1) ≤ 4095 := by
  unfold State.drawFault
  split <;> simp_all [State.rangeFault_none]

/-- RET's fault (R123). -/
theorem faultOf_ret {s : State} {c : Fault} : faultOf .ret s = some c ↔ s.sp = 0 ∧ c = .stackUnderflow := by
  rw [faultOf, Option.ite_none_right_eq_some, Option.some.injEq, eq_comm (a := c)]

/-- CALL's fault (R125). -/
theorem faultOf_call {nnn : Addr} {s : State} {c : Fault} :
    faultOf (.call nnn) s = some c ↔ s.sp = 15 ∧ c = .stackOverflow := by
  rw [faultOf, Option.ite_none_right_eq_some, Option.some.injEq, eq_comm (a := c)]

/-- SKP's fault (R216). -/
theorem faultOf_skp {x : Reg} {s : State} {c : Fault} :
    faultOf (.skp x) s = some c ↔ 15 < (s.getV x).toNat ∧ c = .keyRange (s.getV x) := by
  rw [faultOf, Option.ite_none_right_eq_some, Option.some.injEq, eq_comm (a := c)]

/-- SKNP's fault is SKP's (R216). -/
theorem faultOf_sknp (x : Reg) (s : State) : faultOf (.sknp x) s = faultOf (.skp x) s := rfl

/-- Settles O12: an instruction that leaves a latched machine has raised its fault, whose condition its own check
gives. -/
theorem faultsHaveTheirCauses : Obligations.FaultsHaveTheirCauses := by
  refine ⟨?_, fun _ => rfl, rfl, rfl, fun _ => rfl⟩
  intro i s t r hrun hexec hr
  rcases exec_cases hexec with ⟨c, hc, rfl⟩ | ⟨-, rfl⟩
  · cases hr
    refine ⟨rfl, rfl, ?_⟩
    cases i with
    | ret =>
      obtain ⟨hsp, rfl⟩ := faultOf_ret.mp hc
      exact ⟨hsp, rfl⟩
    | call nnn =>
      obtain ⟨hsp, rfl⟩ := faultOf_call.mp hc
      exact ⟨hsp, nnn, rfl⟩
    | skp x =>
      obtain ⟨hx, rfl⟩ := faultOf_skp.mp hc
      exact ⟨hx, x, rfl, .inl rfl⟩
    | sknp x =>
      obtain ⟨hx, rfl⟩ := faultOf_skp.mp hc
      exact ⟨hx, x, rfl, .inr rfl⟩
    | drw x y n =>
      obtain ⟨hn, hcheck⟩ := State.drawFault_some.mp hc
      obtain ⟨hk, a, rfl, ha⟩ := State.memRange_of_rangeFault hcheck
      exact ⟨ha, .inl ⟨x, y, n, rfl, hn, hk⟩⟩
    | ldB x =>
      obtain ⟨hk, a, rfl, ha⟩ := State.memRange_of_rangeFault hc
      exact ⟨ha, .inr (.inl ⟨x, rfl, hk⟩)⟩
    | ldMemVx x =>
      obtain ⟨hk, a, rfl, ha⟩ := State.memRange_of_rangeFault hc
      exact ⟨ha, .inr (.inr (.inl ⟨x, rfl, hk⟩))⟩
    | ldVxMem x =>
      obtain ⟨hk, a, rfl, ha⟩ := State.memRange_of_rangeFault hc
      exact ⟨ha, .inr (.inr (.inr ⟨x, rfl, hk⟩))⟩
    | _ => cases hc
  · rw [effect_fault, show s.fault = none from hrun] at hr
    cases hr

/-- Settles O6: the two bytes at PC are the fetched word, which is executed. -/
theorem stepRunsDecodedInstruction : Obligations.StepRunsDecodedInstruction := by
  intro s i hrun hpc hbytes
  exact step_instr hrun (fetch_ok.mpr ⟨hpc, rfl⟩) ((decodeBytes_pair _ _ _ _).mp hbytes)

/-- A running machine with an UNKNOWN word at PC outputs the diagnostic (R235). -/
theorem stepDiag_unknown {s : State} {op : Word} {g : Reject} (hrun : s.running) (h : fetch s = .ok op)
    (hd : decode op = .error g) : stepDiag s = some ⟨s.pc, op⟩ := by
  simp [stepDiag, show s.fault = none from hrun, h, hd]

/-- A fetched word has an address that PC + 2 does not take round (R26). -/
theorem toNat_pc_add_two {s : State} (h : s.pc.toNat ≤ 4094) : (s.pc + 2).toNat = s.pc.toNat + 2 := by
  rw [BitVec.toNat_add]
  simp; omega

theorem toNat_pc_add_four {s : State} (h : s.pc.toNat ≤ 4094) : (s.pc + 2 + 2).toNat = s.pc.toNat + 4 := by
  rw [BitVec.toNat_add, toNat_pc_add_two h]
  simp; omega

/-- Settles O7: the step of an UNKNOWN word is `advance`, and its PC is at most 4094. -/
theorem unknownWordOnlyAdvances : Obligations.UnknownWordOnlyAdvances := by
  intro s op g hrun hfetch hd
  obtain ⟨hpc, -⟩ := fetch_ok.mp hfetch
  exact ⟨step_unknown hrun hfetch hd, toNat_pc_add_two hpc, stepDiag_unknown hrun hfetch hd⟩

/-- Settles O8: of a step's four paths only that of an UNKNOWN word outputs a diagnostic. -/
theorem diagnosticExactlyForUnknown : Obligations.DiagnosticExactlyForUnknown := by
  intro s d
  constructor
  · intro h
    unfold stepDiag at h
    split at h
    · cases h
    · rename_i hrun
      split at h
      · cases h
      · rename_i op hfetch
        split at h
        · cases h
        · rename_i g hd
          cases h
          exact ⟨hrun, hfetch, ⟨g, hd⟩, rfl⟩
  · rintro ⟨hrun, hfetch, ⟨g, hd⟩, hpc⟩
    rw [stepDiag_unknown hrun hfetch hd, ← hpc]

/-- Settles O9: the fetch fails above 4094, and the step takes its fault without a word. -/
theorem fetchBeyondMemoryFaults : Obligations.FetchBeyondMemoryFaults :=
  fun _ hrun hpc => step_fetch_error hrun (fetch_error.mpr ⟨hpc, rfl⟩)

end Sys2Proof.Machine
end

-- How PC moves, and which instruction may write which field.
section
namespace Sys2Proof.Machine

/-- The skip of R25 at a fetched instruction, which PC + 4 does not take round (R26). -/
theorem State.toNat_skipIf_pc {s : State} (h : s.pc.toNat ≤ 4094) {c : Bool} {P : Prop} [Decidable P]
    (hc : c = true ↔ P) :
    (s.skipIf c).pc.toNat = if P then s.pc.toNat + 4 else s.pc.toNat + 2 := by
  by_cases hP : P
  · rw [if_pos hP, State.skipIf_pc, if_pos (hc.mpr hP)]
    exact toNat_pc_add_four h
  · rw [if_neg hP, State.skipIf_pc, if_neg (mt hc.mp hP)]
    exact toNat_pc_add_two h

/-- With no key pressed a key-wait changes nothing (R212). -/
theorem State.keyWaited_of_no_key {s : State} (x : Reg) (h : ∀ k, s.keyDown k = false) : s.keyWaited x = s := by
  have hnil : s.pressedKeys = [] := by
    refine List.eq_nil_iff_forall_not_mem.mpr fun k hk => ?_
    simp [h k, State.mem_pressedKeys] at hk
  simp [State.keyWaited, hnil, selectKey]

/-- With a key pressed a key-wait takes some pressed key and advances (R212). -/
theorem State.keyWaited_of_key {s : State} (x : Reg) (h : ∃ k, s.keyDown k = true) :
    ∃ k, s.keyDown k = true ∧ s.keyWaited x = (s.setV x (k.setWidth 8)).countKeyWait.advance := by
  obtain ⟨j, hj⟩ := h
  cases hk : selectKey s.pressedKeys s.keyDraws with
  | none =>
    have hnil := selectKey_none.mp hk
    simp [← State.mem_pressedKeys, hnil] at hj
  | some k => exact ⟨k, (s.mem_pressedKeys k).mp (selectKey_mem hk), by simp [State.keyWaited, hk]⟩

/-- A key-wait advances exactly when some key is pressed (R212). -/
theorem State.keyWaited_pc (s : State) (x : Reg) :
    (s.keyWaited x).pc = if ∃ k, s.keyDown k = true then s.pc + 2 else s.pc := by
  split
  · rename_i hkey
    obtain ⟨k, -, hk⟩ := State.keyWaited_of_key x hkey
    rw [hk]
    rfl
  · rename_i hkey
    rw [State.keyWaited_of_no_key x fun k => Bool.eq_false_iff.mpr fun hk => hkey ⟨k, hk⟩]

/-- Settles O14: a step that latches a fault commits no PC; else PC is that of the instruction's effect, by the
instruction. -/
theorem pcMovesAsListed : Obligations.PcMovesAsListed := by
  intro s t op hrun hfetch hstep
  obtain ⟨hpc, -⟩ := fetch_ok.mp hfetch
  refine ⟨fun hlatched => ?_, fun hrunning => ?_⟩
  · obtain ⟨c, op, rfl⟩ := faultEntryWritesOnlyTheLatch s t hrun hstep hlatched
    rfl
  · cases hd : decode op with
    | error g =>
      rw [step_unknown hrun hfetch hd] at hstep
      cases hstep
      exact toNat_pc_add_two hpc
    | ok i =>
      rw [step_instr hrun hfetch hd] at hstep
      rw [effect_of_running hstep hrunning]
      cases i with
      | seImm x kk => exact State.toNat_skipIf_pc hpc beq_iff_eq
      | sneImm x kk => exact State.toNat_skipIf_pc hpc bne_iff_ne
      | seReg x y => exact State.toNat_skipIf_pc hpc beq_iff_eq
      | sneReg x y => exact State.toNat_skipIf_pc hpc bne_iff_ne
      | skp x => exact State.toNat_skipIf_pc hpc Iff.rfl
      | sknp x =>
        have hkey (b : Bool) : (!b) = true ↔ ¬b = true := by simp
        exact (State.toNat_skipIf_pc hpc (hkey _)).trans (ite_not ..)
      | jp nnn => exact BitVec.toNat_setWidth_of_le (by decide)
      | jpV0 nnn => exact toNat_indexedTarget nnn (s.getV 0)
      | call nnn => exact BitVec.toNat_setWidth_of_le (by decide)
      | ret => rfl
      | ldVxK x =>
        show (s.keyWaited x).pc.toNat = _
        rw [State.keyWaited_pc, apply_ite BitVec.toNat, toNat_pc_add_two hpc]
      | _ => exact toNat_pc_add_two hpc

/-- Settles O52: only the effects of CALL and RET touch the stack. -/
theorem onlyCallAndReturnMoveTheStack : Obligations.OnlyCallAndReturnMoveTheStack := by
  intro i s t hexec hchanged
  rcases exec_cases hexec with ⟨c, -, rfl⟩ | ⟨-, rfl⟩
  · exact absurd hchanged (by simp [State.faulted])
  · cases i with
    | ret => exact .inl rfl
    | call nnn => exact .inr ⟨nnn, rfl⟩
    | _ => rcases hchanged with h | h <;> exact absurd rfl h

/-- Settles O53: only three effects write I; LD I, nnn writes twelve bits, LD F the font address of a byte. -/
theorem onlyIndexInstructionsWriteI : Obligations.OnlyIndexInstructionsWriteI := by
  intro i s t hexec
  refine ⟨fun hchanged => ?_, ?_, ?_⟩
  · rcases exec_cases hexec with ⟨c, -, rfl⟩ | ⟨-, rfl⟩
    · exact absurd rfl hchanged
    · cases i with
      | ldI nnn => exact .inl ⟨nnn, rfl⟩
      | addI x => exact .inr ⟨x, .inl rfl⟩
      | ldF x => exact .inr ⟨x, .inr rfl⟩
      | _ => exact absurd rfl hchanged
  · rintro nnn rfl
    cases hexec
    show ((nnn.setWidth 16 : Word)).toNat ≤ 0xFFF
    rw [BitVec.toNat_setWidth_of_le (by decide)]
    exact Nat.le_of_lt_succ nnn.isLt
  · rintro x rfl
    rw [exec_ldF] at hexec
    cases hexec
    rw [State.advance_i, State.setI_i, toNat_fontAddress]
    have hlt := (s.getV x).isLt
    omega

/-- Settles O54: only the effects of CLS and DRW show a screen, and showing one sets draw_pending. -/
theorem onlyDisplayInstructionsWriteTheScreen : Obligations.OnlyDisplayInstructionsWriteTheScreen := by
  intro i s t hexec
  rcases exec_cases hexec with ⟨c, -, rfl⟩ | ⟨-, rfl⟩
  · exact ⟨fun hchanged => absurd hchanged (by simp [State.faulted]), id⟩
  · cases i with
    | cls => exact ⟨fun _ => .inl rfl, fun _ => rfl⟩
    | drw x y n => exact ⟨fun _ => .inr ⟨x, y, n, rfl⟩, fun _ => rfl⟩
    | _ => exact ⟨fun hchanged => hchanged.elim (absurd rfl) (absurd rfl), id⟩

/-- Settles O55: only the effects of the two stores set memory. -/
theorem onlyStoresWriteMemory : Obligations.OnlyStoresWriteMemory := by
  intro i s t hexec hchanged
  rcases exec_cases hexec with ⟨c, -, rfl⟩ | ⟨-, rfl⟩
  · exact absurd rfl hchanged
  · cases i with
    | ldB x => exact ⟨x, .inl rfl⟩
    | ldMemVx x => exact ⟨x, .inr rfl⟩
    | _ => exact absurd rfl hchanged

/-- Settles O56: no effect writes the keys or sound_active, one writes DT and one ST. -/
theorem timerKeyAndSoundWriters : Obligations.TimerKeyAndSoundWriters := by
  intro i s t hexec
  rcases exec_cases hexec with ⟨c, -, rfl⟩ | ⟨-, rfl⟩
  · exact ⟨rfl, rfl, absurd rfl, absurd rfl⟩
  · cases i with
    | ldDTVx x => exact ⟨rfl, rfl, fun _ => ⟨x, rfl⟩, absurd rfl⟩
    | ldSTVx x => exact ⟨rfl, rfl, absurd rfl, fun _ => ⟨x, rfl⟩⟩
    | _ => exact ⟨rfl, rfl, absurd rfl, absurd rfl⟩

/-- A register that a register write changed is its destination. -/
theorem State.eq_of_getV_setV_ne {s : State} {x r : Reg} {b : Byte} (h : (s.setV x b).getV r ≠ s.getV r) : x = r := by
  rw [State.getV_setV] at h
  by_contra hne
  exact h (if_neg (Ne.symm hne))

/-- A register that a key-wait changed is its destination. -/
theorem State.eq_of_getV_keyWaited_ne {s : State} {x r : Reg} (h : (s.keyWaited x).getV r ≠ s.getV r) : x = r := by
  unfold State.keyWaited at h
  split at h
  · exact absurd rfl h
  · exact State.eq_of_getV_setV_ne h

/-- A block load that changed VF loads all sixteen registers. -/
theorem State.eq_vf_of_getV_blockIn_ne {s : State} {x : Reg} (h : (s.blockIn x).getV 0xF ≠ s.getV 0xF) : x = 0xF := by
  rw [State.getV_blockIn] at h
  have hx : (0xF : Reg).toNat ≤ x.toNat := by
    by_contra hlt
    exact h (if_neg hlt)
  have hlt := x.isLt
  exact BitVec.eq_of_toNat_eq (le_antisymm (Nat.le_of_lt_succ hlt) hx)

/-- Settles O51: an effect that changes VF is one of the six flag writers or writes one register, or a block of them,
that VF is in. -/
theorem flagRegisterWriters : Obligations.FlagRegisterWriters := by
  intro i s t hexec hchanged
  rcases exec_cases hexec with ⟨c, -, rfl⟩ | ⟨-, rfl⟩
  · exact absurd rfl hchanged
  · cases i with
    | addReg x y => exact .inl ⟨x, y, .inl rfl⟩
    | subReg x y => exact .inl ⟨x, y, .inr (.inl rfl)⟩
    | subnReg x y => exact .inl ⟨x, y, .inr (.inr (.inl rfl))⟩
    | shr x y => exact .inl ⟨x, y, .inr (.inr (.inr (.inl rfl)))⟩
    | shl x y => exact .inl ⟨x, y, .inr (.inr (.inr (.inr rfl)))⟩
    | drw x y n => exact .inr (.inl ⟨x, y, n, rfl⟩)
    | ldImm x kk | addImm x kk | rnd x kk | ldReg x y | orReg x y | andReg x y | xorReg x y | ldVxDT x =>
      obtain rfl := State.eq_of_getV_setV_ne hchanged
      simp
    | ldVxK x =>
      obtain rfl := State.eq_of_getV_keyWaited_ne hchanged
      simp
    | ldVxMem x =>
      obtain rfl := State.eq_vf_of_getV_blockIn_ne hchanged
      simp
    | _ => exact absurd rfl hchanged

/-- The state s with other values in the three fields that no instruction reads. -/
def State.withOutputs (s : State) (st : Byte) (d a : Bool) : State :=
  { s with st := st, drawPending := d, soundActive := a }

/-- The range checks read none of the three. -/
theorem faultOf_withOutputs (i : Instr) (s : State) (st : Byte) (d a : Bool) :
    faultOf i (s.withOutputs st d a) = faultOf i s := by
  cases i <;> rfl

/-- A key-wait reads none of the three. -/
theorem State.keyWaited_withOutputs (s : State) (x : Reg) (st : Byte) (d a : Bool) :
    (s.withOutputs st d a).keyWaited x = (s.keyWaited x).withOutputs st d a := by
  have hp : (s.withOutputs st d a).pressedKeys = s.pressedKeys := rfl
  have hk : (s.withOutputs st d a).keyDraws = s.keyDraws := rfl
  unfold State.keyWaited
  rw [hp, hk]
  cases selectKey s.pressedKeys s.keyDraws <;> rfl

/-- A block load reads none of the three. -/
theorem State.blockIn_withOutputs_v (s : State) (x : Reg) (st : Byte) (d a : Bool) :
    ((s.withOutputs st d a).blockIn x).v = (s.blockIn x).v := by
  refine State.v_ext fun r => ?_
  rw [State.getV_blockIn, State.getV_blockIn]
  rfl

/-- No effect reads the three: from states that differ only there it leaves states that differ only there. -/
theorem effect_withOutputs (i : Instr) (s : State) (st : Byte) (d a : Bool) :
    let u := effect i (s.withOutputs st d a)
    u = (effect i s).withOutputs u.st u.drawPending u.soundActive := by
  cases i with
  | ldVxK x => simp only [effect, State.keyWaited_withOutputs]; rfl
  | ldVxMem x => simp only [effect, State.blockIn_withOutputs_v]; rfl
  | _ => rfl

/-- Settles O57: neither the range checks nor the effects read the three fields. -/
theorem outputsAreNeverRead : Obligations.OutputsAreNeverRead := by
  intro i s st d a
  have hfault := faultOf_withOutputs i s st d a
  cases hf : faultOf i s with
  | some c => exact ⟨_, _, exec_of_fault hf, exec_of_fault (hfault.trans hf), rfl⟩
  | none => exact ⟨_, _, exec_of_no_fault hf, exec_of_no_fault (hfault.trans hf), effect_withOutputs i s st d a⟩

end Sys2Proof.Machine
end

-- The invariant: it holds after reset, and every step and every event keeps it.
section
namespace Sys2Proof.Machine

/-- The stack after a push (R125). -/
theorem State.slot_push (s : State) (w : Word) (k : Nibble) :
    (s.push w).slot k = if k = s.sp + 1 then w else s.slot k := by
  show (s.stack.set (s.sp + 1).toNat w (s.sp + 1).isLt)[k.toNat]'k.isLt = _
  rw [Vector.getElem_set]
  exact if_congr (BitVec.toNat_inj.trans eq_comm) rfl rfl

/-- Settles O15: the reset state lists no memory, has a PC of 0x200 and a stack of zeros, and latches nothing. -/
theorem invariantAtReset : Obligations.InvariantAtReset where
  memory := rfl
  pcRange := by decide
  stackRange := by simp [State.slot, State.reset]
  slotZero := rfl
  latchPc := nofun

/-- A fault latched at this PC keeps the invariant. -/
theorem State.Inv.faulted {s : State} (h : s.Inv) (c : Fault) (op : Option Word) : (s.faulted c op).Inv :=
  { h with latchPc := fun _ hr => by cases hr; rfl }

/-- A stack entry after an effect is as before, or it is not stack[0] and holds a return address (R29, R125). -/
theorem effect_slot {i : Instr} {s : State} (hf : faultOf i s = none) (k : Nibble) :
    (effect i s).slot k = s.slot k ∨ k ≠ 0 ∧ (effect i s).slot k = s.pc + 2 := by
  cases i with
  | call nnn =>
    have hsp : s.sp ≠ 15 := by
      intro h
      simp [faultOf_call.mpr ⟨h, rfl⟩] at hf
    show (s.push s.nextPc).slot k = _ ∨ _ ∧ (s.push s.nextPc).slot k = _
    rw [State.slot_push]
    by_cases hk : k = s.sp + 1
    · refine .inr ⟨?_, if_pos hk⟩
      rw [hk]
      bv_omega
    · exact .inl (if_neg hk)
  | _ => exact .inl rfl

/-- The largest PC an effect leaves is that of JP V0, 0xFFF with V0 = 0xFF (R26). -/
theorem effect_pc_le (i : Instr) {s : State} (hpc : s.pc.toNat ≤ 4094) (htop : s.topOfStack.toNat ≤ 4096) :
    (effect i s).pc.toNat ≤ 0x10FE := by
  have hnext : (s.pc + 2).toNat ≤ 0x10FE := by
    rw [toNat_pc_add_two hpc]
    omega
  have hskip (c : Bool) : (s.skipIf c).pc.toNat ≤ 0x10FE := by
    rw [State.toNat_skipIf_pc hpc Iff.rfl]
    split <;> omega
  have hfield (nnn : Addr) : (nnn.setWidth 16 : Word).toNat ≤ 0xFFF := by
    rw [BitVec.toNat_setWidth_of_le (by decide)]
    exact Nat.le_of_lt_succ nnn.isLt
  cases i with
  | seImm | sneImm | seReg | sneReg | skp | sknp => exact hskip _
  | jp nnn | call nnn => exact (hfield nnn).trans (by decide)
  | jpV0 nnn =>
    refine (toNat_indexedTarget nnn (s.getV 0)).trans_le ?_
    have hnnn := nnn.isLt
    have hv := (s.getV 0).isLt
    omega
  | ret => exact htop.trans (by decide)
  | ldVxK x =>
    show (s.keyWaited x).pc.toNat ≤ _
    rw [State.keyWaited_pc]
    split
    · exact hnext
    · omega
  | _ => exact hnext

/-- An effect leaves memory canonical: the range checks keep the stores inside memory. -/
theorem effect_mem_wf {i : Instr} {s : State} (h : s.mem.wf = true) (hf : faultOf i s = none) :
    (effect i s).mem.wf = true := by
  cases i with
  | ldB x =>
    have hfits : s.i.toNat + 2 ≤ 4095 := State.rangeFault_none.mp hf
    exact Memory.wf_writeBytes h _ (Nat.succ_le_succ hfits)
  | ldMemVx x =>
    have hfits : s.i.toNat + x.toNat ≤ 4095 := State.rangeFault_none.mp hf
    exact Memory.wf_writeBytes h _ (by rw [State.blockOut_length]; exact Nat.succ_le_succ hfits)
  | _ => exact h

/-- A fetched instruction that raises no fault keeps the invariant. -/
theorem State.Inv.effect {i : Instr} {s : State} (h : s.Inv) (hrun : s.running) (hpc : s.pc.toNat ≤ 4094)
    (hf : faultOf i s = none) : (effect i s).Inv where
  memory := effect_mem_wf h.memory hf
  pcRange := effect_pc_le i hpc (h.stackRange s.sp)
  stackRange k := by
    rcases effect_slot hf k with hk | ⟨-, hk⟩
    · rw [hk]
      exact h.stackRange k
    · rw [hk, toNat_pc_add_two hpc]
      omega
  slotZero := by
    rcases effect_slot hf 0 with hk | ⟨hne, -⟩
    · exact hk.trans h.slotZero
    · exact absurd rfl hne
  latchPc r hr := by
    rw [effect_fault, show s.fault = none from hrun] at hr
    cases hr

/-- Settles O16: of a step's four paths one changes nothing, one or an instruction's fault writes the latch, one is an
effect, and that of an UNKNOWN word moves PC to at most 4096. -/
theorem stepKeepsInvariant : Obligations.StepKeepsInvariant := by
  intro s t h hstep
  rcases step_cases hstep with ⟨_, _, rfl⟩ | ⟨c, _, _, rfl⟩ | ⟨op, i, hrun, hfetch, _, hexec⟩ |
    ⟨op, _, hrun, hfetch, _, rfl⟩
  · exact h
  · exact h.faulted c none
  · obtain ⟨hpc, -⟩ := fetch_ok.mp hfetch
    rcases exec_cases hexec with ⟨c, -, rfl⟩ | ⟨hf, rfl⟩
    · exact h.faulted c _
    · exact h.effect hrun hpc hf
  · obtain ⟨hpc, -⟩ := fetch_ok.mp hfetch
    refine { h with pcRange := ?_, latchPc := fun r hr => ?_ }
    · rw [State.advance_pc, toNat_pc_add_two hpc]
      omega
    · simp [show s.fault = none from hrun] at hr

/-- A RESET leaves a state that meets the invariant, whatever the state before (R270). -/
theorem State.inv_resetWith (s : State) {rom : List Byte} (h : rom.length ≤ Config.romMax) : (s.resetWith rom).Inv :=
  { invariantAtReset with memory := Memory.wf_writeBytes Memory.wf_nil rom (Nat.add_le_add_left h Config.romBase) }

/-- What keeps the invariant keeps it on a latched machine too, where it does nothing (R233). -/
theorem State.Inv.unlessLatched {s t : State} (h : s.Inv) (ht : t.Inv) : (unlessLatched s t).Inv := by
  unfold Machine.unlessLatched
  split
  · exact h
  · exact ht

/-- Every event that is taken keeps the invariant. -/
theorem deliver_keeps_inv {e : Event} {s t : State} (h : s.Inv) (hd : deliver e s = .next t) : t.Inv := by
  cases e with
  | reset rom =>
    simp only [deliver] at hd
    split at hd
    · rename_i hrom
      cases hd
      exact s.inv_resetWith hrom
    · cases hd
  | step => exact stepKeepsInvariant s t h hd
  | tick => cases hd; exact h.unlessLatched { h with }
  | keySet k b => cases hd; exact h.unlessLatched { h with }
  | drawAck => cases hd; exact h.unlessLatched { h with }

/-- Settles O17, by induction on the history: an event that is refused changes nothing. -/
theorem historiesKeepInvariant : Obligations.HistoriesKeepInvariant := by
  intro es
  induction es with
  | nil => exact fun s h => h
  | cons e rest ih =>
    intro s h
    simp only [runEvents]
    split
    · rename_i t hd
      exact ih t (deliver_keeps_inv h hd)
    · exact ih s h
    · exact ih s h

end Sys2Proof.Machine
end

-- Subtraction, shifts and random bytes: each is one register write, with or without a flag before it.
section
namespace Sys2Proof.Machine

theorem exec_subReg (x y : Reg) (s : State) :
    exec (.subReg x y) s =
      .next (s.setFlagThenV x (noBorrowOf (s.getV x) (s.getV y)) (s.getV x - s.getV y)).advance := rfl

theorem exec_subnReg (x y : Reg) (s : State) :
    exec (.subnReg x y) s =
      .next (s.setFlagThenV x (noBorrowOf (s.getV y) (s.getV x)) (s.getV y - s.getV x)).advance := rfl

theorem exec_shr (x y : Reg) (s : State) :
    exec (.shr x y) s = .next (s.setFlagThenV x (lowBitOf (s.getV x)) (s.getV x >>> 1)).advance := rfl

theorem exec_shl (x y : Reg) (s : State) :
    exec (.shl x y) s = .next (s.setFlagThenV x (highBitOf (s.getV x)) (s.getV x <<< 1)).advance := rfl

theorem exec_rnd (x : Reg) (kk : Byte) (s : State) :
    exec (.rnd x kk) s = .next (s.setV x (Config.rand s.randDraws &&& kk)).countRand.advance := rfl

/-- No borrow is a comparison, and no borrow at equality (R148, R149). -/
theorem noBorrowOf_iff (a b : Byte) : noBorrowOf a b = true ↔ a.toNat ≥ b.toNat := decide_eq_true_iff

/-- The difference of R148 and R149, taken modulo 256 in the naturals, is the 8-bit difference. -/
theorem ofNat_difference_mod (a b : Byte) : BitVec.ofNat 8 ((256 + a.toNat - b.toNat) % 256) = a - b := by
  have hb := b.isLt
  refine BitVec.eq_of_toNat_eq ?_
  rw [BitVec.toNat_ofNat, BitVec.toNat_sub]
  omega

/-- The bit a right shift drops is the parity (R150). -/
theorem lowBitOf_iff (a : Byte) : lowBitOf a = true ↔ a.toNat % 2 = 1 := by
  rw [lowBitOf, BitVec.getLsbD, Nat.testBit_zero, decide_eq_true_iff]

/-- The bit a left shift drops is the sign bit (R151). -/
theorem highBitOf_iff (a : Byte) : highBitOf a = true ↔ a.toNat ≥ 128 := by
  have hmsb : highBitOf a = a.msb := (BitVec.msb_eq_getLsbD_last a).symm
  rw [hmsb, BitVec.msb_eq_decide, decide_eq_true_iff]

/-- A right shift halves (R150). -/
theorem ofNat_half (a : Byte) : BitVec.ofNat 8 (a.toNat / 2) = a >>> 1 := by
  refine BitVec.eq_of_toNat_eq ?_
  have ha := a.isLt
  rw [BitVec.toNat_ofNat, BitVec.toNat_ushiftRight, Nat.shiftRight_one]
  omega

/-- A left shift doubles modulo 256 (R151). -/
theorem ofNat_double_mod (a : Byte) : BitVec.ofNat 8 (2 * a.toNat % 256) = a <<< 1 := by
  refine BitVec.eq_of_toNat_eq ?_
  rw [BitVec.toNat_ofNat, BitVec.toNat_shiftLeft, Nat.shiftLeft_eq]
  omega

/-- Settles O23: SUB and SUBN are one flag-then-result write with the operands exchanged. -/
theorem subtractResults : Obligations.SubtractResults := by
  intro x y s
  refine ⟨decode_eight x y 0x5, decode_eight x y 0x7, ⟨_, exec_subReg x y s, ?_⟩, _, exec_subnReg x y s, ?_⟩
  · rw [ofNat_difference_mod]
    exact writesRegisters_setFlagThenV s x (noBorrowOf_iff _ _) _
  · rw [ofNat_difference_mod]
    exact writesRegisters_setFlagThenV s x (noBorrowOf_iff _ _) _

/-- Settles O24: SHR and SHL are one flag-then-result write, the flag being the bit shifted out. -/
theorem shiftResults : Obligations.ShiftResults := by
  intro x y s
  refine ⟨decode_eight x y 0x6, decode_eight x y 0xE, ⟨_, exec_shr x y s, ?_⟩, _, exec_shl x y s, ?_⟩
  · rw [ofNat_half]
    exact writesRegisters_setFlagThenV s x (lowBitOf_iff _) _
  · rw [ofNat_double_mod]
    exact writesRegisters_setFlagThenV s x (highBitOf_iff _) _

/-- A masked byte has no bit outside its mask. -/
theorem and_mask_and_not (b m : Byte) : b &&& m &&& ~~~m = 0 := by
  rw [BitVec.and_assoc, BitVec.and_not_self]
  exact BitVec.and_zero

/-- Settles O25: RND is one register write of the masked byte and one step of the counter. -/
theorem randomResult : Obligations.RandomResult := by
  intro x kk s
  refine ⟨decode_rnd x kk, _, exec_rnd x kk s, fun r => State.getV_setV s x _ r, ?_, rfl, rfl, rfl, fun _ => rfl⟩
  rw [State.advance_getV, State.countRand_getV, State.getV_setV, if_pos rfl]
  exact and_mask_and_not _ _

end Sys2Proof.Machine
end

-- CALL, RET and the self-jump.
section
namespace Sys2Proof

/-- The OR of R251 writes the word of JP a when a fits in twelve bits. -/
theorem jumpWord_eq {a : Word} (h : a.toNat ≤ 0xFFF) : 0x1000 ||| a = 0x1#4 ++ a.setWidth 12 := by
  have hn1 : (fieldsOf a).n1 = 0x0#4 := by
    refine BitVec.eq_of_toNat_eq ?_
    simp only [fieldsOf, BitVec.extractLsb'_toNat, Nat.shiftRight_eq_div_pow]
    simp
    omega
  have hnnn : (fieldsOf a).nnn = a.setWidth 12 := by
    refine BitVec.eq_of_toNat_eq ?_
    simp [fieldsOf]
  calc 0x1000 ||| a
    _ = (0x1#4 ++ 0x000#12) ||| (0x0#4 ++ a.setWidth 12) := by rw [← hn1, ← hnnn, word_eq_nnn]; rfl
    _ = 0x1#4 ++ a.setWidth 12 := by rw [BitVec.or_append, BitVec.or_zero, BitVec.zero_or]

end Sys2Proof

namespace Sys2Proof.Machine

/-- An address of twelve bits is not shortened by the field nnn. -/
theorem setWidth_setWidth_of_le {a : Word} (h : a.toNat ≤ 0xFFF) : (a.setWidth 12).setWidth 16 = a := by
  refine BitVec.eq_of_toNat_eq ?_
  simp
  omega

/-- Settles O58: the word fetched is JP to its own address, whose only effect is PC := PC. -/
theorem selfJumpIsFinal : Obligations.SelfJumpIsFinal := by
  rintro s ⟨hrun, hpc, hword⟩
  have hfetch : fetch s = .ok (0x1#4 ++ s.pc.setWidth 12) :=
    fetch_ok.mpr ⟨hpc, by rw [hword, jumpWord_eq (by omega)]⟩
  rw [step_instr hrun hfetch (decode_jp _), exec_jp, setWidth_setWidth_of_le (by omega)]

/-- Settles O28: CALL pushes and jumps, or is latched by its check of SP. -/
theorem callResult : Obligations.CallResult := by
  intro nnn s
  refine ⟨decode_call nnn, fun hsp => ?_, fun hsp => exec_of_fault (faultOf_call.mpr ⟨hsp, rfl⟩)⟩
  have hsucc : (s.sp + 1).toNat = s.sp.toNat + 1 := by bv_omega
  refine ⟨_, exec_of_no_fault (if_neg hsp), hsucc, fun k => ?_, BitVec.toNat_setWidth_of_le (by decide), rfl,
    fun _ => rfl⟩
  refine (s.slot_push _ k).trans (if_congr ?_ rfl rfl)
  rw [← BitVec.toNat_inj, hsucc]

/-- Settles O29: RET goes to the top entry and leaves it on the stack, or is latched by its check of SP. -/
theorem returnResult : Obligations.ReturnResult := by
  intro s
  refine ⟨decode_ret, fun hsp => ?_, fun hsp => exec_of_fault (faultOf_ret.mpr ⟨hsp, rfl⟩)⟩
  have hpred : (s.sp - 1).toNat + 1 = s.sp.toNat := by bv_omega
  exact ⟨_, exec_of_no_fault (if_neg hsp), rfl, hpred, rfl, fun _ => rfl, fun _ => rfl⟩

/-- The effect of RET changes PC and SP only (R123). -/
theorem effect_ret_only (s : State) : effect .ret s = { s with pc := s.slot s.sp, sp := s.sp - 1 } := rfl

/-- Settles O30: the entry that RET takes is the one that CALL has pushed. -/
theorem callThenReturn : Obligations.CallThenReturn := by
  intro nnn s hsp
  have hne : s.sp + 1 ≠ 0 := by bv_omega
  have hback : s.sp + 1 - 1 = s.sp := by bv_omega
  refine ⟨_, _, exec_of_no_fault (if_neg hsp), exec_of_no_fault (if_neg hne), ?_, hback, fun k hk => ?_, ?_⟩
  · exact (s.slot_push _ _).trans (if_pos rfl)
  · refine (s.slot_push _ k).trans (if_neg ?_)
    rintro rfl
    bv_omega
  · have hreturned := effect_ret_only (effect (.call nnn) s)
    rwa [show (effect (.call nnn) s).sp - 1 = s.sp from hback] at hreturned

end Sys2Proof.Machine
end

-- The index register and memory: canonical memories, the two stores and the block load.
section
namespace Sys2Proof.Machine

theorem exec_ldI (nnn : Addr) (s : State) : exec (.ldI nnn) s = .next (s.setI (nnn.setWidth 16)).advance := rfl

/-- Settles O32: LD I, nnn is one write of I, of the field widened to 16 bits. -/
theorem loadIndexResult : Obligations.LoadIndexResult := by
  intro nnn s
  exact ⟨decode_ldI nnn, _, BitVec.toNat_setWidth_of_le (by decide), by rw [exec_ldI, State.advance_setI]⟩

/-- The canonical form, cell by cell. -/
theorem Memory.wfAbove_cons_iff {lo k : Nat} {b : Byte} {m : Memory} :
    Memory.wfAbove lo ((k, b) :: m) = true ↔
      lo ≤ k ∧ k < Config.memSize ∧ b ≠ resetByte k ∧ Memory.wfAbove (k + 1) m = true := by
  simp only [Memory.wfAbove, Bool.and_eq_true, decide_eq_true_eq, and_assoc]

/-- A memory reads its first cell's byte at that cell's address. -/
theorem Memory.read_head (k : Nat) (b : Byte) (m : Memory) : Memory.read ((k, b) :: m) k = b := if_pos rfl

/-- A memory reads past its first cell at every other address. -/
theorem Memory.read_tail {k a : Nat} (b : Byte) (m : Memory) (h : a ≠ k) :
    Memory.read ((k, b) :: m) a = m.read a := if_neg h

/-- A canonical memory whose cells lie above lo, and that reads as another one whose first cell is at k, has its own
first cell not above k: else it would read the reset byte there. -/
theorem Memory.not_lt_of_read_eq {lo k : Nat} {b : Byte} {m n : Memory} (hn : Memory.wfAbove lo n = true)
    (hb : b ≠ resetByte k) (h : ∀ a, Memory.read ((k, b) :: m) a = n.read a) : ¬k < lo := by
  intro hlt
  have hk := h k
  rw [Memory.read_head, Memory.read_below hn hlt] at hk
  exact hb hk

/-- Canonical memories that read the same are the same cells, by induction on them: the first cells of both are at one
address, since the memory with the later one would read the reset byte at the earlier one. -/
theorem Memory.eq_of_read_eq {lo lo' : Nat} {m n : Memory} (hm : Memory.wfAbove lo m = true)
    (hn : Memory.wfAbove lo' n = true) (hread : ∀ a, m.read a = n.read a) : m = n := by
  induction m generalizing lo lo' n with
  | nil =>
    rcases n with _ | ⟨⟨k, b⟩, n⟩
    · rfl
    · obtain ⟨-, -, hb, -⟩ := Memory.wfAbove_cons_iff.mp hn
      exact absurd ((Memory.read_head k b n).symm.trans (hread k).symm) hb
  | cons cell m ih =>
    obtain ⟨k, b⟩ := cell
    rcases n with _ | ⟨⟨j, c⟩, n⟩
    · obtain ⟨-, -, hb, -⟩ := Memory.wfAbove_cons_iff.mp hm
      exact absurd ((Memory.read_head k b m).symm.trans (hread k)) hb
    · obtain ⟨-, hkmem, hb, hm'⟩ := Memory.wfAbove_cons_iff.mp hm
      obtain ⟨-, hjmem, hc, hn'⟩ := Memory.wfAbove_cons_iff.mp hn
      have hjk : ¬k < j :=
        Memory.not_lt_of_read_eq (Memory.wfAbove_cons_iff.mpr ⟨le_rfl, hjmem, hc, hn'⟩) hb hread
      have hkj : ¬j < k :=
        Memory.not_lt_of_read_eq (Memory.wfAbove_cons_iff.mpr ⟨le_rfl, hkmem, hb, hm'⟩) hc fun a => (hread a).symm
      obtain rfl : j = k := by omega
      have hbyte : b = c := by rw [← Memory.read_head j b m, hread, Memory.read_head]
      have hrest : m = n := by
        refine ih hm' hn' fun a => ?_
        by_cases ha : a < j + 1
        · rw [Memory.read_below hm' ha, Memory.read_below hn' ha]
        · have hne : a ≠ j := by omega
          rw [← Memory.read_tail b m hne, hread, Memory.read_tail c n hne]
      rw [hbyte, hrest]

/-- Settles O18, at the lower bound 0 that the canonical form starts from. -/
theorem canonicalMemoriesAreEqual : Obligations.CanonicalMemoriesAreEqual := fun _ _ => Memory.eq_of_read_eq

/-- An instruction whose check is of I .. I + k has its effect when the check passes (R176). -/
theorem exec_of_in_range {i : Instr} {s : State} {k : Nat} (hi : faultOf i s = s.rangeFault k)
    (hk : s.i.toNat + k ≤ 4095) : exec i s = .next (effect i s) :=
  exec_of_no_fault (hi.trans (State.rangeFault_none.mpr hk))

/-- An instruction whose check is of I .. I + k is latched when the check fails (R176). -/
theorem rangeFaults_of_out_of_range {i : Instr} {s : State} {k : Nat} (hi : faultOf i s = s.rangeFault k)
    (hk : 4095 < s.i.toNat + k) : RangeFaults i s :=
  ⟨_, rangeAddress_toNat s.i, exec_of_fault (hi.trans (State.rangeFault_some.mpr ⟨hk, rfl⟩))⟩

/-- Byte k of a list that was stored from a on, read back (R67). -/
theorem Memory.read_writeBytes_in {m : Memory} (h : m.wf = true) {a : Nat} {l : List Byte}
    (ha : a + l.length ≤ Config.memSize) {k : Nat} (hk : k < l.length) :
    (m.writeBytes a l).read (a + k) = l.getD k 0 := by
  rw [Memory.read_writeBytes h l ha, if_pos ⟨Nat.le_add_right a k, Nat.add_lt_add_left hk a⟩, Nat.add_sub_cancel_left]

/-- A store of a list changes no byte outside its range (R67). -/
theorem sameBytesOutside_writeBytes {s t : State} (h : s.mem.wf = true) {a : Nat} {l : List Byte}
    (ha : a + l.length ≤ Config.memSize) (ht : t.mem = s.mem.writeBytes a l) : SameBytesOutside a l.length s t := by
  intro b hb
  rw [ht, Memory.read_writeBytes h l ha, if_neg hb]

/-- Settles O34: the three digits are stored from I on, and each is below 256. -/
theorem bcdStoreResult : Obligations.BcdStoreResult := by
  intro x s hwf
  refine ⟨decode_fGroup x 0x33, fun hrange => ?_, rangeFaults_of_out_of_range rfl⟩
  have hfits : s.addr 0 + (bcdDigits (s.getV x)).length ≤ Config.memSize := Nat.succ_le_succ hrange
  have hdigit (k : Nat) (hk : k < 3) :
      (s.mem.writeBytes (s.addr 0) (bcdDigits (s.getV x))).read (s.addr k) = (bcdDigits (s.getV x)).getD k 0 :=
    Memory.read_writeBytes_in hwf hfits hk
  have hlt := (s.getV x).isLt
  refine ⟨_, exec_of_in_range rfl hrange, ?_, ?_, ?_, sameBytesOutside_writeBytes hwf hfits rfl, rfl⟩
  · refine (congrArg BitVec.toNat (hdigit 0 (by decide))).trans (Nat.mod_eq_of_lt ?_)
    omega
  · refine (congrArg BitVec.toNat (hdigit 1 (by decide))).trans (Nat.mod_eq_of_lt ?_)
    omega
  · refine (congrArg BitVec.toNat (hdigit 2 (by decide))).trans (Nat.mod_eq_of_lt ?_)
    omega

/-- Settles O35: the block of registers is stored from I on, register k at I + k. -/
theorem blockStoreResult : Obligations.BlockStoreResult := by
  intro x s hwf
  refine ⟨decode_fGroup x 0x55, fun hrange => ?_, rangeFaults_of_out_of_range rfl⟩
  have hlen := s.blockOut_length x
  have hfits : s.addr 0 + (s.blockOut x).length ≤ Config.memSize := by
    rw [hlen]
    exact Nat.succ_le_succ hrange
  refine ⟨_, exec_of_in_range rfl hrange, fun k hk => ?_, ?_, rfl⟩
  · refine (Memory.read_writeBytes_in hwf hfits (k := k.toNat) (by omega)).trans ?_
    rw [State.blockOut_getD s x hk, BitVec.ofNat_toNat, BitVec.setWidth_eq]
  · exact hlen ▸ sameBytesOutside_writeBytes hwf hfits rfl

/-- Settles O36: the block load's effect is on the registers alone. -/
theorem blockLoadResult : Obligations.BlockLoadResult := by
  intro x s
  refine ⟨decode_fGroup x 0x65, fun hrange => ?_, rangeFaults_of_out_of_range rfl⟩
  exact ⟨_, exec_of_in_range rfl hrange, s.getV_blockIn x, rfl, rfl, fun _ => rfl⟩

/-- The high byte of a word (R63). -/
theorem toNat_wordOfBytes_div (b c : Byte) : (wordOfBytes b c).toNat / 256 = b.toNat := by
  have hc := c.isLt
  rw [wordOfBytes, BitVec.toNat_append, ← Nat.shiftLeft_add_eq_or_of_lt hc, Nat.shiftLeft_eq]
  omega

/-- Settles O19: register k is stored at the address that the next fetch reads its high byte from. -/
theorem storeSeenByNextFetch : Obligations.StoreSeenByNextFetch := by
  intro s x k hwf hrange hk haddr hpc
  obtain ⟨-, hstore, -⟩ := blockStoreResult x s hwf
  obtain ⟨t, hexec, hbytes, -, ht⟩ := hstore hrange
  have hnext : t.pc.toNat = s.pc.toNat + 2 := by
    rw [ht]
    exact toNat_pc_add_two (by omega)
  refine ⟨t, _, hexec, fetch_ok.mpr ⟨by omega, rfl⟩, ?_⟩
  rw [Memory.readWord, toNat_wordOfBytes_div, hnext, ← haddr]
  exact congrArg BitVec.toNat (hbytes k hk)

end Sys2Proof.Machine
end

-- DRW: what a draw leaves, and what a second draw of the same sprite leaves.
section
namespace Sys2Proof.Machine

/-- The anchor column (R191) is V[x] modulo the width of the screen. -/
theorem State.anchorX_eq (s : State) (x : Reg) : s.anchorX x = (s.getV x).toNat % 64 :=
  (BitVec.toNat_and _ _).trans (Nat.and_two_pow_sub_one_eq_mod _ 6)

/-- The anchor row (R191) is V[y] modulo the height of the screen. -/
theorem State.anchorY_eq (s : State) (y : Reg) : s.anchorY y = (s.getV y).toNat % 32 :=
  (BitVec.toNat_and _ _).trans (Nat.and_two_pow_sub_one_eq_mod _ 5)

/-- What a draw leaves on the screen, in the terms of R192. -/
theorem State.drawn_eq (s : State) (x y : Reg) (n : Nibble) :
    s.drawn x y n =
      drawSprite (fun r => s.mem.read (s.addr r)) ((s.getV x).toNat % 64) ((s.getV y).toNat % 32) n.toNat s.fb := by
  rw [State.drawn, State.anchorX_eq, State.anchorY_eq]
  rfl

/-- A draw that passes its check has its effect (R191). -/
theorem exec_drw_of_in_range {x y : Reg} {n : Nibble} {s : State} (h : n = 0 ∨ s.i.toNat + (n.toNat - 1) ≤ 4095) :
    exec (.drw x y n) s = .next (effect (.drw x y n) s) :=
  exec_of_no_fault (State.drawFault_none.mpr h)

/-- A flag byte is 1 exactly when its flag is set (R23). -/
theorem flagByte_eq_one {c : Bool} : flagByte c = 1 ↔ c = true := by
  cases c <;> decide

/-- VF after a draw is the collision (R191). -/
theorem getV_vf_effect_drw (x y : Reg) (n : Nibble) (s : State) :
    (effect (.drw x y n) s).getV 0xF = flagByte (s.drawn x y n).hit :=
  (s.getV_setV vf _ 0xF).trans (if_pos rfl)

/-- A draw sets VF to 1 exactly when a sprite bit lands on a lit pixel (R192). -/
theorem vf_effect_drw_iff (x y : Reg) (n : Nibble) (s : State) :
    (effect (.drw x y n) s).getV 0xF = 1 ↔
      ∃ px py, SpriteLands (fun r => s.mem.read (s.addr r)) ((s.getV x).toNat % 64) ((s.getV y).toNat % 32) n.toNat
        px py ∧ s.fb.get px py = true := by
  rw [getV_vf_effect_drw, flagByte_eq_one, State.drawn_eq, drawSprite_hit]

/-- A draw flips the pixels that the sprite lands on (R192). -/
theorem effect_drw_get_hit {x y : Reg} {n : Nibble} {s : State} {px py : Nat}
    (h : SpriteLands (fun r => s.mem.read (s.addr r)) ((s.getV x).toNat % 64) ((s.getV y).toNat % 32) n.toNat px py) :
    (effect (.drw x y n) s).fb.get px py = !s.fb.get px py := by
  show (s.drawn x y n).fb.get px py = _
  rw [State.drawn_eq]
  exact drawSprite_get_hit s.fb h

/-- A draw leaves every other pixel (R192). -/
theorem effect_drw_get_miss {x y : Reg} {n : Nibble} {s : State} {px py : Nat}
    (h : ¬SpriteLands (fun r => s.mem.read (s.addr r)) ((s.getV x).toNat % 64) ((s.getV y).toNat % 32) n.toNat px py) :
    (effect (.drw x y n) s).fb.get px py = s.fb.get px py := by
  show (s.drawn x y n).fb.get px py = _
  rw [State.drawn_eq]
  exact drawSprite_get_miss s.fb h

/-- Settles O38: the drawn screen flips where the sprite lands and nowhere else, and its collision is the flag. -/
theorem drawClosedForm : Obligations.DrawClosedForm := by
  intro x y n s lands
  refine ⟨decode_drw x y n, fun hrange => ?_, fun hn => rangeFaults_of_out_of_range (if_neg hn)⟩
  refine ⟨_, exec_drw_of_in_range hrange, fun _ _ => effect_drw_get_hit, fun _ _ => effect_drw_get_miss,
    (vf_effect_drw_iff x y n s).mpr, fun hnone => ?noCollision, fun r hr => ?others, rfl, rfl, rfl, fun _ => rfl⟩
  case noCollision =>
    rw [← vf_effect_drw_iff, getV_vf_effect_drw, flagByte_eq_one] at hnone
    rw [getV_vf_effect_drw, flagByte, if_neg hnone]
  case others => exact (s.getV_setV vf _ r).trans (if_neg hr)

/-- Settles O39: the second draw is of the same sprite at the same anchor, so it lands where the first has landed: it
flips those pixels back, and hits those that were dark before. -/
theorem drawTwiceRestores : Obligations.DrawTwiceRestores := by
  intro x y n s lands hrange
  refine ⟨_, exec_drw_of_in_range hrange, fun hx hy => ⟨_, exec_drw_of_in_range hrange, ?_, ?_⟩⟩
  all_goals
    generalize ht : effect (.drw x y n) s = t at hx hy ⊢
    have hsame : SpriteLands (fun r => t.mem.read (t.addr r)) ((t.getV x).toNat % 64) ((t.getV y).toNat % 32) n.toNat =
        lands := by
      rw [hx, hy, ← ht]
      rfl
  · refine Screen.ext_get fun px py _ _ => ?_
    by_cases h : lands px py
    · rw [effect_drw_get_hit (hsame ▸ h), ← ht, effect_drw_get_hit h, Bool.not_not]
    · rw [effect_drw_get_miss (hsame ▸ h), ← ht, effect_drw_get_miss h]
  · rw [vf_effect_drw_iff, hsame]
    refine exists_congr fun px => exists_congr fun py => and_congr_right fun h => ?_
    rw [← ht, effect_drw_get_hit h, Bool.not_eq_true']

end Sys2Proof.Machine
end

-- Keys: the two skips by a key's level, and the key-wait.
section
namespace Sys2Proof.Machine

/-- A register that holds a key number is that key's index, not shortened (R216). -/
theorem State.keyIndex_eq {s : State} {x : Reg} {k : Key} (h : (s.getV x).toNat = k.toNat) :
    (s.getV x).setWidth 4 = k := by
  refine BitVec.eq_of_toNat_eq ?_
  rw [BitVec.toNat_setWidth, h]
  exact Nat.mod_eq_of_lt k.isLt

/-- SKP raises no fault with a key number in V[x] (R216). -/
theorem faultOf_skp_of_key {s : State} {x : Reg} {k : Key} (h : (s.getV x).toNat = k.toNat) :
    faultOf (.skp x) s = none := by
  have hk := k.isLt
  exact if_neg (by omega)

/-- Settles O40: with a key number in V[x] both are one skip by that key's level, else both raise one fault. -/
theorem keySkipResults : Obligations.KeySkipResults := by
  intro x s
  refine ⟨decode_eGroup x 0x9E, decode_eGroup x 0xA1, fun k hk => ?_, fun hx => ?_⟩
  · have hok := faultOf_skp_of_key hk
    refine ⟨(exec_of_no_fault hok).trans ?_, (exec_of_no_fault ((faultOf_sknp x s).trans hok)).trans ?_⟩
    · rw [effect, State.keyIndex_eq hk, State.skipIf_eq s Iff.rfl]
    · rw [effect, State.keyIndex_eq hk, State.skipIf_eq s (P := ¬s.keyDown k = true) (by simp), ite_not]
  · have hfault := faultOf_skp.mpr ⟨hx, rfl⟩
    exact ⟨exec_of_fault hfault, exec_of_fault ((faultOf_sknp x s).trans hfault)⟩

/-- Settles O41: a key-wait without a key is no change, and with one it is one register write of a pressed key's
number. -/
theorem keyWaitResult : Obligations.KeyWaitResult := by
  intro x s
  refine ⟨decode_fGroup x 0x0A, fun hnone => ?_, fun hsome => ?_⟩
  · rw [exec_ldVxK, State.keyWaited_of_no_key x hnone]
  · obtain ⟨k, hdown, hk⟩ := State.keyWaited_of_key x hsome
    exact ⟨_, k, k.setWidth 8, hdown, BitVec.toNat_setWidth_of_le (by decide), (exec_ldVxK x s).trans (congrArg _ hk),
      fun r => s.getV_setV x _ r, rfl, rfl, fun _ => rfl⟩

end Sys2Proof.Machine
end

-- Host events: TICK, KEY_SET, DRAW_ACK and RESET, one by one and in histories, and the read ports.
section
namespace Sys2Proof.Machine

/-- An event on a running machine takes place (R233). -/
theorem unlessLatched_running {s : State} (h : s.running) (t : State) : unlessLatched s t = t := by
  simp [unlessLatched, show s.fault = none from h]

/-- An event on a latched machine does nothing (R233). -/
theorem unlessLatched_latched {s : State} {r : FaultRecord} (h : s.fault = some r) (t : State) :
    unlessLatched s t = s := by
  simp [unlessLatched, h]

/-- A machine that does not run has a latched fault (R233). -/
theorem State.exists_fault_of_not_running {s : State} (h : ¬s.running) : ∃ r, s.fault = some r :=
  Option.ne_none_iff_exists'.mp h

/-- A timer after a tick is one less, never below 0 (R238). -/
theorem toNat_tickTimer (b : Byte) : (tickTimer b).toNat = b.toNat - 1 := by
  unfold tickTimer
  split
  · rename_i h; simp [h]
  · bv_omega

/-- A tick leaves sound_active by the sound timer before it (R238). -/
theorem ticked_soundActive_iff (s : State) : s.ticked.soundActive = true ↔ 0 < s.st.toNat := by
  rw [Nat.pos_iff_ne_zero]
  exact bne_iff_ne.trans (not_congr BitVec.toNat_inj.symm)

/-- A TICK on a running machine (R238). -/
theorem deliver_tick {s : State} (h : s.running) : deliver .tick s = .next s.ticked :=
  congrArg _ (unlessLatched_running h s.ticked)

/-- Settles O43: a tick writes the two timers and sound_active, and a latched machine has none. -/
theorem tickResult : Obligations.TickResult := by
  intro s
  refine ⟨fun hrun => ?_, fun hlatched => ?_⟩
  · exact ⟨_, deliver_tick hrun, toNat_tickTimer s.dt, toNat_tickTimer s.st, ticked_soundActive_iff s, rfl⟩
  · obtain ⟨r, hr⟩ := State.exists_fault_of_not_running hlatched
    exact congrArg _ (unlessLatched_latched hr s.ticked)

/-- A history that begins with a TICK of a running machine (R241). -/
theorem runEvents_tick {s : State} (h : s.running) (es : List Event) :
    runEvents (.tick :: es) s = runEvents es s.ticked := by
  rw [runEvents, deliver_tick h]

/-- Settles O44, by induction on the number of ticks: the first one takes one from each timer. -/
theorem timersCountDown : Obligations.TimersCountDown := by
  intro s n
  induction n generalizing s with
  | zero =>
    intro hrun
    rw [List.replicate_succ, runEvents_tick hrun]
    exact ⟨toNat_tickTimer s.dt, toNat_tickTimer s.st, ticked_soundActive_iff s⟩
  | succ n ih =>
    intro hrun
    obtain ⟨hdt, hst, hsound⟩ := ih s.ticked hrun
    have hdt1 : s.ticked.dt.toNat = s.dt.toNat - 1 := toNat_tickTimer s.dt
    have hst1 : s.ticked.st.toNat = s.st.toNat - 1 := toNat_tickTimer s.st
    rw [List.replicate_succ, runEvents_tick hrun]
    exact ⟨by omega, by omega, hsound.trans (by omega)⟩

/-- The font ends at 0x0A0, and memory without a ROM is zero outside it (R42, R68). -/
theorem resetByte_outside_font {a : Nat} (h : a < 0x050 ∨ 0x0A0 ≤ a) : resetByte a = 0 := by
  unfold resetByte
  split
  · refine List.getD_eq_default _ _ ?_
    show 80 ≤ _
    simp [Config.fontBase] at *
    omega
  · rfl

/-- Settles O46: RESET's state is the reset state but for memory, which reads the ROM in its range and the font and
zeros elsewhere. -/
theorem resetLeavesState : Obligations.ResetLeavesState := by
  intro s rom hrom
  have hread := s.read_resetWith hrom
  refine ⟨_, deliver_reset hrom, rfl, rfl, Screen.get_clear, fun _ => Vector.getElem_replicate _, rfl,
    fun _ => Vector.getElem_replicate _, rfl, rfl, fun _ => Vector.getElem_replicate _, rfl, rfl, rfl,
    fun a hlo hhi => ?font, fun a ha => ?zeros, rfl, rfl⟩
  case font =>
    rw [hread, if_neg (by simp [Config.romBase]; omega), resetByte, if_pos hlo]
  case zeros =>
    rw [hread, if_neg (by simp [Config.romBase]; omega), resetByte_outside_font (by omega)]

/-- A RESET whose ROM does not fit is refused (R271). -/
theorem deliver_reset_oversize {rom : List Byte} (s : State) (h : 3584 < rom.length) :
    deliver (.reset rom) s = .refused .romTooLong :=
  if_neg (Nat.not_le_of_lt h)

/-- A RESET whose ROM does not fit is passed over in a history (R271). -/
theorem runEvents_reset_oversize {rom : List Byte} (s : State) (es : List Event) (h : 3584 < rom.length) :
    runEvents (.reset rom :: es) s = runEvents es s := by
  rw [runEvents, deliver_reset_oversize s h]

/-- Settles O47: a refused event is passed over. -/
theorem oversizeRomRefused : Obligations.OversizeRomRefused :=
  fun s _ es h => ⟨deliver_reset_oversize s h, runEvents_reset_oversize s es h⟩

/-- Settles O48: each port's range check decides. -/
theorem readPortsCheckTheirRange : Obligations.ReadPortsCheckTheirRange := by
  intro s x y a
  refine ⟨fun h => if_pos h, fun h => if_neg ?_, fun h => if_pos (Nat.lt_succ_of_le h),
    fun h => if_neg (Nat.not_lt_of_le h)⟩
  rintro ⟨hx : x < 64, hy : y < 32⟩
  omega

/-- Read after write of a key (R32). -/
theorem State.keyDown_setKey (s : State) (k : Key) (b : Bool) (j : Key) :
    (s.setKey k b).keyDown j = if j = k then b else s.keyDown j := by
  show (s.keys.set k.toNat b k.isLt)[j.toNat]'j.isLt = _
  rw [Vector.getElem_set]
  exact if_congr (BitVec.toNat_inj.trans eq_comm) rfl rfl

/-- A KEY_SET on a running machine (R242). -/
theorem deliver_keySet {s : State} (h : s.running) (k : Key) (b : Bool) :
    deliver (.keySet k b) s = .next (s.setKey k b) :=
  congrArg _ (unlessLatched_running h (s.setKey k b))

/-- A DRAW_ACK on a running machine (R242). -/
theorem deliver_drawAck {s : State} (h : s.running) : deliver .drawAck s = .next s.drawAcked :=
  congrArg _ (unlessLatched_running h s.drawAcked)

/-- Settles O49: on a running machine each of the two events is its one write. -/
theorem keySetAndDrawAckWriteOnlyTheirs : Obligations.KeySetAndDrawAckWriteOnlyTheirs := by
  intro s k b hrun
  exact ⟨⟨_, deliver_keySet hrun k b, s.keyDown_setKey k b, rfl⟩, deliver_drawAck hrun⟩

/-- Settles O10: the step and the three events test the latch first, and the read ports do not read it. -/
theorem latchedMachineStands : Obligations.LatchedMachineStands := by
  intro s r hr
  have hstand (t : State) : Host.Outcome.next (unlessLatched s t) = (.next s : Answer) :=
    congrArg _ (unlessLatched_latched hr t)
  exact ⟨step_latched hr, by simp [stepDiag, hr], step_latched hr, hstand _, fun _ _ => hstand _, hstand _,
    fun _ _ => rfl, fun _ => rfl⟩

/-- Settles O50: every event but RESET leaves a latched machine as it is, which is latched. -/
theorem onlyResetClearsTheLatch : Obligations.OnlyResetClearsTheLatch := by
  intro e s t hlatched hd hrun
  obtain ⟨r, hr⟩ := State.exists_fault_of_not_running hlatched
  obtain ⟨-, -, hstep, htick, hkey, hack, -⟩ := latchedMachineStands s r hr
  cases e with
  | reset rom => exact ⟨rom, rfl⟩
  | step => exact absurd (Host.Outcome.next.inj (hstep.symm.trans hd) ▸ hrun) hlatched
  | tick => exact absurd (Host.Outcome.next.inj (htick.symm.trans hd) ▸ hrun) hlatched
  | keySet k b => exact absurd (Host.Outcome.next.inj ((hkey k b).symm.trans hd) ▸ hrun) hlatched
  | drawAck => exact absurd (Host.Outcome.next.inj (hack.symm.trans hd) ▸ hrun) hlatched

end Sys2Proof.Machine
end

-- The clock cycle: the order of its events, and the ROM-load channel.
section
namespace Sys2Proof.Machine

/-- A history of one STEP leaves what the step answers with. -/
theorem step_eq_runEvents (s : State) : step s = .next (runEvents [.step] s) := by
  obtain ⟨t, ht⟩ := stepAlwaysAnswers s
  simp [runEvents, deliver, ht]

/-- A history that begins with a DRAW_ACK of a running machine (R241). -/
theorem runEvents_drawAck {s : State} (h : s.running) (es : List Event) :
    runEvents (.drawAck :: es) s = runEvents es s.drawAcked := by
  rw [runEvents, deliver_drawAck h]

/-- A cycle without rst and with step_en ends with the STEP of what its other events leave (R243). -/
theorem clock_step {p : PortIn} (s : PortState) (hrst : p.rst = false) (hstep : p.stepEn = true) :
    (clock p s).core = runEvents [.step] (s.released.beforeStep p) := by
  simp [clock, hrst, hstep, eventWhen]

/-- The key sampling of a cycle on a running machine (R243). -/
theorem State.sampleKeys_running {s : State} (h : s.running) (k : Vector Bool 16) :
    s.sampleKeys k = { s with keys := k } :=
  unlessLatched_running h _

/-- The events before the STEP of a cycle leave a running machine running, with the same word to fetch. -/
theorem State.fetch_beforeStep {s : State} (h : s.running) (p : PortIn) :
    (s.beforeStep p).running ∧ fetch (s.beforeStep p) = fetch s := by
  have hsampled : ({ s with keys := p.keyIn } : State).running := h
  rw [State.beforeStep, State.sampleKeys_running h]
  cases p.drawAck <;> cases p.tickEn
  case false.false => exact ⟨h, rfl⟩
  case false.true => exact (runEvents_tick hsampled []).symm ▸ ⟨h, rfl⟩
  case true.false => exact (runEvents_drawAck hsampled []).symm ▸ ⟨h, rfl⟩
  case true.true =>
    have hacked : ({ s with keys := p.keyIn } : State).drawAcked.running := h
    exact ((runEvents_drawAck hsampled [.tick]).trans (runEvents_tick hacked [])).symm ▸ ⟨h, rfl⟩

/-- Settles O59: the STEP comes last in a cycle, and that of a CLS shows a screen. -/
theorem clockOrder : Obligations.ClockOrder := by
  intro s p hrst hstep hrun
  rw [clock_step s hrst hstep]
  refine ⟨fun htick hack => ?_, fun hfetch => ?_⟩
  · rw [← step_eq_runEvents, State.beforeStep, State.sampleKeys_running hrun, htick, hack]
    have hsampled : ({ s.released with keys := p.keyIn } : State).running := hrun
    exact congrArg step (runEvents_tick hsampled []).symm
  · obtain ⟨hrun', hsame⟩ := State.fetch_beforeStep hrun p
    have hcls := step_instr hrun' (hsame.trans hfetch) decode_cls
    rw [step_eq_runEvents, exec_cls] at hcls
    rw [Host.Outcome.next.inj hcls]
    rfl

/-- A cycle of the load channel takes the next byte of the image (R243). -/
theorem clock_romCycle (p : PortIn) (core : State) (image : List Byte) (b : Byte) (h : image.length < 4096) :
    clock { p with rst := true, romWe := true, romAddr := BitVec.ofNat 12 image.length, romData := b }
      ⟨core, some image⟩ = ⟨core, some (image ++ [b])⟩ := by
  have haddr : (BitVec.ofNat 12 image.length).toNat = image.length := by
    rw [BitVec.toNat_ofNat]
    exact Nat.mod_eq_of_lt h
  rw [clock_rst rfl]
  simp [PortState.received, haddr]

/-- The cycles that load the rest of an image append it and leave the core (R243). -/
theorem clocks_romCyclesFrom (p : PortIn) (core : State) (rom image : List Byte)
    (h : image.length + rom.length ≤ 4096) :
    clocks (romCyclesFrom p image.length rom) ⟨core, some image⟩ = ⟨core, some (image ++ rom)⟩ := by
  induction rom generalizing image with
  | nil => simp [clocks, romCyclesFrom]
  | cons b rest ih =>
    rw [List.length_cons] at h
    have hrest := ih (image ++ [b]) (by simp; omega)
    rw [List.length_append, List.length_singleton, List.append_assoc, List.singleton_append] at hrest
    rw [← hrest, ← clock_romCycle p core image b (by omega)]
    rfl

/-- The first byte of an image is received alike whether or not an empty image is already there. -/
theorem clocks_romCyclesFrom_idle (p : PortIn) (core : State) {rom : List Byte} (h : rom ≠ []) :
    clocks (romCyclesFrom p 0 rom) ⟨core, none⟩ = clocks (romCyclesFrom p 0 rom) ⟨core, some []⟩ := by
  obtain ⟨b, rest, rfl⟩ := List.exists_cons_of_ne_nil h
  rfl

/-- Settles O60: the load cycles leave the core and the whole image, and the release is one RESET with it. -/
theorem romChannelIsReset : Obligations.RomChannelIsReset := by
  intro s p rom hne hlen t
  have ht : t = ⟨s, some rom⟩ :=
    (clocks_romCyclesFrom_idle p s hne).trans (clocks_romCyclesFrom p s rom [] (by simpa using hlen))
  rw [ht, PortState.released_loading]
  refine ⟨rfl, fun hfits => ?_, fun hlong => runEvents_reset_oversize s [] hlong⟩
  rw [runEvents, deliver_reset hfits]
  rfl

end Sys2Proof.Machine
end
